-- ==== Sys2Proof/Word.lean ====
section
/-! DEFINITION. The word types of the block (00_scope.md R8, R9): unsigned values of 8, 16 and 32 bits. -/

namespace Sys2Proof

/-- A byte, an unsigned 8-bit value (R8: `u8`). -/
abbrev Byte := BitVec 8

/-- The 16-bit IMM operand field of a command word (30_encoding.md R70; R8: `u16`). -/
abbrev Imm := BitVec 16

/-- A command word or a register of the host map as it is read (30_encoding.md R70, 20_memory.md R51; R8: `u32`). -/
abbrev Word := BitVec 32

end Sys2Proof
end

