-- ==== Sys2Proof/Config.lean ====
section
/-! DEFINITION. What is fixed for the block: the constants of 00_scope.md R7 and R80, the parameters R7 leaves OPEN,
and the free values. An `opaque` constant has no body: a claim holds whatever it is. -/

namespace Sys2Proof

/-- The parameters of R7 a model takes as arguments and that rules read at every step. They stand in State as a field
that no step writes, so a claim about every state is a claim about every value of them (log entry 4). -/
structure Params where
  /-- IN_CAP: capacity of IBUF in bytes. -/
  inCap : Nat
  /-- OUT_DEPTH: capacity of OFIFO in frames. -/
  outDepth : Nat
  /-- ZERO_LEN_ACCEPT: whether a received frame with LENGTH = 0 is accepted. -/
  zeroLenAccept : Bool
  deriving DecidableEq, Repr

/-- The constraints R7 puts on the parameters: IN_CAP ≥ 128 and OUT_DEPTH ≥ 1. -/
abbrev Params.Legal (p : Params) : Prop := 128 ≤ p.inCap ∧ 1 ≤ p.outDepth

namespace Config

/-- MAX_FRAME (R7): the largest frame, and the capacity of OPBUF, RBUF and STAGE (R26, R30, R35). -/
abbrev maxFrame : Nat := 128

/-- MAX_TX_PAYLOAD (R7). -/
abbrev maxTxPayload : Nat := 65

/-- MAX_AT_VALUE (R7): MAX_FRAME − 8. -/
abbrev maxAtValue : Nat := 120

/-- NUM_MAX_LEN (R7). -/
abbrev numMaxLen : Nat := 4

/-- N_FIELDS (R7). -/
abbrev nFields : Nat := 12

/-- The number of bytes of DEST (R28), and of legal DEST_SET indices (R71). -/
abbrev destSize : Nat := 8

/-- The start delimiter 0x7E (R80). -/
abbrev startByte : Byte := 0x7E

/-- TYPE of a Local AT Command (R81). -/
abbrev typeAtCommand : Byte := 0x08

/-- TYPE of a Transmit Request (R81). -/
abbrev typeTransmitRequest : Byte := 0x10

/-- TYPE of a Local AT Command Response (R81). -/
abbrev typeAtResponse : Byte := 0x88

/-- TYPE of an Extended Transmit Status (R81); no command reads its body (R87). -/
abbrev typeTransmitStatus : Byte := 0x8B

/-- TYPE of a Receive Packet (R81). -/
abbrev typeReceivePacket : Byte := 0x90

/-- The FRAME_ID the encoder always writes (R149). -/
abbrev frameId : Byte := 0x01

/-- FI_ATCMD's "unknown" sentinel (R221). -/
abbrev unknownField : Byte := 0xFF

/-- The size in bytes of the register window (R50). -/
abbrev windowSize : Nat := 4096

/-- How far IN_CAP of this machine lies above its least value 128 (R7: OPEN; log entry 4). -/
opaque inCapAbove : Nat

/-- How far OUT_DEPTH of this machine lies above its least value 1 (R7: OPEN; log entry 4). -/
opaque outDepthAbove : Nat

/-- ZERO_LEN_ACCEPT of this machine (R7: a Boolean parameter, true by default; log entry 4). -/
opaque zeroLenAccept : Bool

/-- This machine's parameters: every value R7 allows is one of these. -/
def params : Params := ⟨inCapAbove + 128, outDepthAbove + 1, zeroLenAccept⟩

/-- FIELD_RULE_SN (R145: OPEN, a total predicate; log entry 5). -/
opaque fieldRuleSN : List Byte → Bool

/-- FIELD_RULE_SO (R145; log entry 5). -/
opaque fieldRuleSO : List Byte → Bool

/-- FIELD_RULE_ST (R145; log entry 5). -/
opaque fieldRuleST : List Byte → Bool

/-- FIELD_RULE_SP (R145; log entry 5). -/
opaque fieldRuleSP : List Byte → Bool

/-- FIELD_RULE_WH (R145; log entry 5). -/
opaque fieldRuleWH : List Byte → Bool

/-- The 4096-byte page BASE_ADDR names (R7, R67: OPEN; log entry 6). -/
opaque basePage : Nat

/-- BASE_ADDR: where the register window sits in the host's address space, aligned to 4096 (R7, R67). No rule depends
on it: the model's host accesses carry offsets into the window. -/
def baseAddr : Nat := windowSize * basePage

/-- FREE VALUE (log entry 7): the 32-bit word a count of 2^32 or more is read or reported as. The spec states none:
R51 and R93 give such a count a 32-bit register. -/
opaque wideCount : Nat → Word

end Config

end Sys2Proof
end

