-- ==== Sys2Proof/Syntax.lean ====
section
/-! DEFINITION. The 25 commands of spec/opcode_table.json (30_encoding.md R74), one constructor a row, with the operand
fields the command word gives each (R70, R73), and the 12 AT fields of R84. -/

namespace Sys2Proof

/-- The AT fields of 30_encoding.md R84, in the order of their ids 0 to 11. -/
inductive AtField where
  | ID | CH | NI | SM | SN | SO | ST | SP | WH | SH | SL | WR
  deriving DecidableEq, Repr

/-- A command. A field operand is the byte the word carries; WellFormed says which bytes are field ids. -/
inductive Instr where
  | nop
  | opbClr
  | opbPush (a : Byte)
  | opbFromRbuf
  | destSet (index : Imm) (a : Byte)
  | csumClr
  | csumAdd (a : Byte)
  | csumRead
  | csumBuf
  | fvCheck (f : Byte)
  | encAt (f : Byte)
  | encTx
  | inPush (a : Byte)
  | inAppend
  | parse
  | extract
  | outPop
  | fiSize
  | fiType
  | fiAtvsz
  | fiAtval
  | fiAtcmd
  | fiAtstat
  | fiRxpay
  | pktCount (n : Imm)
  deriving DecidableEq, Repr

end Sys2Proof
end

