-- ==== Sys2Proof/WellFormed.lean ====
section
/-! DEFINITION. Which commands are legal: the operand range checks of 30_encoding.md R71 and R75. -/

namespace Sys2Proof

/-- R71: a field id is below N_FIELDS (FV_CHECK, ENC_AT) and a DEST_SET index is at most 7; no other command has an
operand out of range. -/
def Instr.wellFormed : Instr → Bool
  | .nop => true
  | .opbClr => true
  | .opbPush _ => true
  | .opbFromRbuf => true
  | .destSet index _ => index.toNat < Config.destSize
  | .csumClr => true
  | .csumAdd _ => true
  | .csumRead => true
  | .csumBuf => true
  | .fvCheck f => f.toNat < Config.nFields
  | .encAt f => f.toNat < Config.nFields
  | .encTx => true
  | .inPush _ => true
  | .inAppend => true
  | .parse => true
  | .extract => true
  | .outPop => true
  | .fiSize => true
  | .fiType => true
  | .fiAtvsz => true
  | .fiAtval => true
  | .fiAtcmd => true
  | .fiAtstat => true
  | .fiRxpay => true
  | .pktCount _ => true

end Sys2Proof
end

