-- ==== Sys2Proof/Decode.lean ====
section
/-! DEFINITION. The command word (30_encoding.md R70 to R76): decoding, total on every word and rejecting by name, and
encoding. -/

namespace Sys2Proof

/-- The four command formats of R72. -/
inductive Format where
  | f0 | fa | fi | fai
  deriving DecidableEq, Repr

/-- Why a word is no command (R75), in the order R256 reports the reasons. -/
inductive Illegal where
  | undefinedOpcode
  | reservedFieldNonZero
  | operandOutOfRange
  deriving DecidableEq, Repr

/-- The OP field, w[7:0] (R70). -/
def opField (w : Word) : Byte := w.extractLsb' 0 8

/-- The A field, w[15:8] (R70). -/
def aField (w : Word) : Byte := w.extractLsb' 8 8

/-- The IMM field, w[31:16] (R70). -/
def immField (w : Word) : Imm := w.extractLsb' 16 16

/-- R72: whether the fields a format reserves are zero. -/
def Format.reservedZero (f : Format) (a : Byte) (imm : Imm) : Bool :=
  match f with
  | .f0 => a = 0 && imm = 0
  | .fa => imm = 0
  | .fi => a = 0
  | .fai => true

/-- The opcode map of R74: the format and the command an opcode selects, with its operands taken from A and IMM; none
for the 231 opcodes the map does not list. -/
def opcodeMap (op a : Byte) (imm : Imm) : Option (Format × Instr) :=
  match op.toNat with
  | 0x00 => some (.f0, .nop)
  | 0x01 => some (.f0, .opbClr)
  | 0x02 => some (.fa, .opbPush a)
  | 0x03 => some (.f0, .opbFromRbuf)
  | 0x04 => some (.fai, .destSet imm a)
  | 0x10 => some (.f0, .csumClr)
  | 0x11 => some (.fa, .csumAdd a)
  | 0x12 => some (.f0, .csumRead)
  | 0x13 => some (.f0, .csumBuf)
  | 0x20 => some (.fa, .fvCheck a)
  | 0x21 => some (.fa, .encAt a)
  | 0x22 => some (.f0, .encTx)
  | 0x30 => some (.fa, .inPush a)
  | 0x31 => some (.f0, .inAppend)
  | 0x32 => some (.f0, .parse)
  | 0x33 => some (.f0, .extract)
  | 0x34 => some (.f0, .outPop)
  | 0x40 => some (.f0, .fiSize)
  | 0x41 => some (.f0, .fiType)
  | 0x42 => some (.f0, .fiAtvsz)
  | 0x43 => some (.f0, .fiAtval)
  | 0x44 => some (.f0, .fiAtcmd)
  | 0x45 => some (.f0, .fiAtstat)
  | 0x46 => some (.f0, .fiRxpay)
  | 0x47 => some (.fi, .pktCount imm)
  | _ => none

/-- The decoder: the checks of R71, in the order of R256. -/
def decode (w : Word) : Except Illegal Instr :=
  match opcodeMap (opField w) (aField w) (immField w) with
  | none => .error .undefinedOpcode
  | some (f, i) =>
    if f.reservedZero (aField w) (immField w) = false then .error .reservedFieldNonZero
    else if i.wellFormed = false then .error .operandOutOfRange
    else .ok i

/-- The opcode of a command (R74). -/
def Instr.opcode : Instr → Byte
  | .nop => 0x00
  | .opbClr => 0x01
  | .opbPush _ => 0x02
  | .opbFromRbuf => 0x03
  | .destSet _ _ => 0x04
  | .csumClr => 0x10
  | .csumAdd _ => 0x11
  | .csumRead => 0x12
  | .csumBuf => 0x13
  | .fvCheck _ => 0x20
  | .encAt _ => 0x21
  | .encTx => 0x22
  | .inPush _ => 0x30
  | .inAppend => 0x31
  | .parse => 0x32
  | .extract => 0x33
  | .outPop => 0x34
  | .fiSize => 0x40
  | .fiType => 0x41
  | .fiAtvsz => 0x42
  | .fiAtval => 0x43
  | .fiAtcmd => 0x44
  | .fiAtstat => 0x45
  | .fiRxpay => 0x46
  | .pktCount _ => 0x47

/-- The A field of a command's word: its byte or field operand, else 0 (R72, R73). -/
def Instr.aOperand : Instr → Byte
  | .opbPush a => a
  | .destSet _ a => a
  | .csumAdd a => a
  | .fvCheck f => f
  | .encAt f => f
  | .inPush a => a
  | .nop | .opbClr | .opbFromRbuf | .csumClr | .csumRead | .csumBuf | .encTx | .inAppend | .parse | .extract | .outPop
  | .fiSize | .fiType | .fiAtvsz | .fiAtval | .fiAtcmd | .fiAtstat | .fiRxpay | .pktCount _ => 0

/-- The IMM field of a command's word: its index or count operand, else 0 (R72, R73). -/
def Instr.immOperand : Instr → Imm
  | .destSet index _ => index
  | .pktCount n => n
  | .nop | .opbClr | .opbPush _ | .opbFromRbuf | .csumClr | .csumAdd _ | .csumRead | .csumBuf | .fvCheck _ | .encAt _
  | .encTx | .inPush _ | .inAppend | .parse | .extract | .outPop | .fiSize | .fiType | .fiAtvsz | .fiAtval | .fiAtcmd
  | .fiAtstat | .fiRxpay => 0

/-- The command word of R74: zext_32(imm)·0x10000 + a·0x100 + OP. -/
def encode (i : Instr) : Word :=
  BitVec.ofNat 32 (i.immOperand.toNat * 0x10000 + i.aOperand.toNat * 0x100 + i.opcode.toNat)

/-- The command the decoder reads from a word of `nbits` bits, numbered as spec/opcode_table.json numbers them: a
command is one 32-bit word, bit 0 the least significant (R70, R76). Bits from `nbits` up are 0. -/
def decodeTableWord (nbits w : Nat) : Option Instr :=
  if nbits ≤ 32 then (decode (BitVec.ofNat 32 (w % 2 ^ nbits))).toOption else none

end Sys2Proof
end

