-- ==== Sys2Proof/Machine/State.lean ====
section
/-! DEFINITION. The block's state as plain data (10_state.md R23 to R38), the host's side of the port, reset
(70_reset_and_hazards.md R280), and why a step can stop. -/

namespace Sys2Proof.Machine

/-- The states of the frame state machine (43_stream_parser.md R171). -/
inductive Fsm where
  | seekStart | lenHi | lenLo | body
  deriving DecidableEq, Repr

/-- The transient registers of frame_extractor_fsm (10_state.md R35). PARSE and EXTRACT use them; R36 says they carry
nothing from one command to the next (log entry 9). -/
structure ScanRegs where
  /-- FSM: the state machine's state. -/
  fsm : Fsm
  /-- STAGE: the staged bytes TYPE..end of BODY of the current candidate. -/
  stage : Vector Byte 128
  /-- LH: the LENGTH high byte of the current candidate. -/
  lh : Byte
  /-- L: the LENGTH of the current candidate. -/
  l : BitVec 16
  /-- K: the number of staged bytes held so far. -/
  k : Byte
  /-- CS: the index of the current candidate's start delimiter. -/
  cs : Nat
  /-- CB: the consumed boundary. -/
  cb : Nat
  /-- I: the index of the byte being examined. -/
  i : Nat
  deriving DecidableEq, Repr

/-- One access of the host to the register window, or its reset input (60_exceptions.md R267): an offset into the
window, a width in bytes, and for a write the word written. -/
inductive HostAccess where
  | write (off width : Nat) (w : Word)
  | read (off width : Nat)
  | reset
  deriving DecidableEq, Repr

/-- The state: the tuple of R38, the transient registers of R35, the parameters of R7, and the host's side. -/
structure State where
  /-- The parameters IN_CAP, OUT_DEPTH, ZERO_LEN_ACCEPT (R7); no step writes them (log entry 4). -/
  params : Params
  /-- STATUS (R24). -/
  status : BitVec 8
  /-- RESULT (R25). -/
  result : Word
  /-- ACC (R31). -/
  acc : Byte
  /-- OPBUF (R26). -/
  opbuf : Vector Byte 128
  /-- OPLEN (R26). -/
  oplen : Nat
  /-- DEST (R28); DEST[0] is the most significant byte of the address. -/
  dest : Vector Byte 8
  /-- RBUF (R30). -/
  rbuf : Vector Byte 128
  /-- RLEN (R30). -/
  rlen : Nat
  /-- IBUF (R32): IN_CAP bytes of storage. -/
  ibuf : List Byte
  /-- IN_COUNT (R32). -/
  inCount : Nat
  /-- LAST_CONSUMED (R33). -/
  lastConsumed : Nat
  /-- OFIFO (R34), the oldest frame first. -/
  ofifo : List (List Byte)
  /-- The transient registers of R35. -/
  scan : ScanRegs
  /-- The MODEL's own field: the host's accesses the block has not served yet, oldest first (log entry 1). -/
  pending : List HostAccess
  /-- The MODEL's own field: the words the host's reads have returned, oldest first (log entry 2). -/
  hostData : List Word
  deriving DecidableEq, Repr

/-- Why a step faults: never. The block has no traps, and an error is a STATUS code in a next state (60_exceptions.md
R250), so there is no fault reason (log entry 11); safe. -/
inductive Fault where
  deriving DecidableEq, Repr

/-- Why a step has no meaning. -/
inductive Refusal where
  /-- An instruction without a meaning yet, raised by exec's own arm; safe. -/
  | notModelled (mnemonic : String)
  /-- A host access outside the admitted set of 20_memory.md R55, raised by the host port (`serve`): the spec says a
  model refuses it (93_implementation_defined.md I8); safe (log entry 10). -/
  | accessNotAdmitted (access : HostAccess)
  deriving DecidableEq, Repr

/-- The transient registers after reset: FSM = SEEK_START (R280); the rest unspecified, here zero (log entry 9). -/
def ScanRegs.reset : ScanRegs :=
  { fsm := .seekStart, stage := Vector.replicate 128 0, lh := 0, l := 0, k := 0, cs := 0, cb := 0, i := 0 }

/-- The state after reset of a block with parameters p (R280). The bytes R280 leaves unspecified are zero (log
entry 8); nothing is pending and nothing has been read (log entries 1, 2). -/
def State.resetWith (p : Params) : State :=
  { params := p
    status := 0x00
    result := 0x00000000
    acc := 0x00
    opbuf := Vector.replicate 128 0
    oplen := 0
    dest := Vector.replicate 8 0
    rbuf := Vector.replicate 128 0
    rlen := 0
    ibuf := List.replicate p.inCap 0
    inCount := 0
    lastConsumed := 0
    ofifo := []
    scan := ScanRegs.reset
    pending := []
    hostData := [] }

/-- The machine right after reset (R280), with this machine's parameters. -/
def State.reset : State := State.resetWith Config.params

end Sys2Proof.Machine
end

