-- ==== Sys2Proof/Machine/Flags.lean ====
section
/-! DEFINITION. The status codes of 30_encoding.md R90 and the two ways a command ends: OK, or a raise (00_scope.md R12,
60_exceptions.md R250). The block has no other flag (10_state.md R22). -/

namespace Sys2Proof.Machine

/-- The eight statuses of R90. -/
inductive Status where
  | ok | validationError | payloadTooLarge | notFound | full | empty | range | illegal
  deriving DecidableEq, Repr

/-- The code of a status (R90). -/
def statusCode : Status → BitVec 8
  | .ok => 0x00
  | .validationError => 0x01
  | .payloadTooLarge => 0x02
  | .notFound => 0x03
  | .full => 0x04
  | .empty => 0x05
  | .range => 0x06
  | .illegal => 0x07

/-- `raise st` (R12, R250, R252): STATUS <- st and nothing else. It is the block's whole exception: no state is saved,
no mode changes, control goes nowhere and there is nothing to return from (R259). -/
def State.raise (s : State) (st : Status) : State := { s with status := statusCode st }

/-- A command's last effect on success: STATUS <- OK (R24, R90). -/
def State.endOk (s : State) : State := { s with status := statusCode .ok }

end Sys2Proof.Machine
end

