-- ==== Sys2Proof/Machine/Bytes.lean ====
section
/-! DEFINITION. Byte strings (00_scope.md R10, R11): ranges, big-endian and little-endian reading, and storing a string
into a buffer of fixed size. -/

namespace Sys2Proof.Machine

/-- s[a..b), the half-open range of R10: the bytes at indices a, ..., b − 1. -/
def slice (s : List Byte) (a b : Nat) : List Byte := (s.drop a).take (b - a)

/-- s[i] (R10). -/
def byteAt (s : List Byte) (i : Nat) : Byte := s.getD i 0

/-- be16(s, i) of R11. -/
def be16 (s : List Byte) (i : Nat) : Nat := (byteAt s i).toNat * 256 + (byteAt s (i + 1)).toNat

/-- hi8(v) = v[15:8] of R11. -/
def hi8 (v : Nat) : Byte := BitVec.ofNat 8 (v / 256)

/-- lo8(v) = v[7:0] of R11. -/
def lo8 (v : Nat) : Byte := BitVec.ofNat 8 v

/-- le_mag(s) of R11: the little-endian magnitude. -/
def leMag : List Byte → Nat
  | [] => 0
  | b :: s => b.toNat + 256 * leMag s

/-- buf[at..at+|s|) <- s, in a buffer whose size stays what it is: the bytes outside that range are unchanged (R12).
Every use fits (log entry 18); bytes past the end would be dropped. -/
def storeList (buf : List Byte) (at_ : Nat) (s : List Byte) : List Byte :=
  (buf.take at_ ++ s ++ buf.drop (at_ + s.length)).take buf.length

theorem length_storeList (buf : List Byte) (at_ : Nat) (s : List Byte) :
    (storeList buf at_ s).length = buf.length := by
  simp only [storeList, List.length_take, List.length_append, List.length_drop]
  omega

/-- buf[0..|s|) <- s in a buffer of n bytes. -/
def storeFront {n : Nat} (buf : Vector Byte n) (s : List Byte) : Vector Byte n :=
  ⟨(storeList buf.toList 0 s).toArray, by simp [length_storeList]⟩

end Sys2Proof.Machine
end

