-- ==== Sys2Proof/Machine/Operands.lean ====
section
/-! DEFINITION. What a command reads: the operand fields of the word (30_encoding.md R73) as field ids, and the operand,
result and input strings (10_state.md R26, R30, R32). -/

namespace Sys2Proof.Machine

/-- A read as a field id (R73, R84); none for a value of 12 or more (R71). -/
def fieldOfId (f : Byte) : Option AtField :=
  match f.toNat with
  | 0 => some .ID
  | 1 => some .CH
  | 2 => some .NI
  | 3 => some .SM
  | 4 => some .SN
  | 5 => some .SO
  | 6 => some .ST
  | 7 => some .SP
  | 8 => some .WH
  | 9 => some .SH
  | 10 => some .SL
  | 11 => some .WR
  | _ => none

/-- The id of a field (R84). -/
def fieldId : AtField → Byte
  | .ID => 0
  | .CH => 1
  | .NI => 2
  | .SM => 3
  | .SN => 4
  | .SO => 5
  | .ST => 6
  | .SP => 7
  | .WH => 8
  | .SH => 9
  | .SL => 10
  | .WR => 11

/-- wire(f): the two wire bytes of a field's name (R84). Those of ID and NI stand in the source's examples, the others
are the ASCII codes of the letters (PRESUMED, log entry 16). -/
def wire : AtField → Byte × Byte
  | .ID => (0x49, 0x44)
  | .CH => (0x43, 0x48)
  | .NI => (0x4E, 0x49)
  | .SM => (0x53, 0x4D)
  | .SN => (0x53, 0x4E)
  | .SO => (0x53, 0x4F)
  | .ST => (0x53, 0x54)
  | .SP => (0x53, 0x50)
  | .WH => (0x57, 0x48)
  | .SH => (0x53, 0x48)
  | .SL => (0x53, 0x4C)
  | .WR => (0x57, 0x52)

/-- The fields in the order of their ids (R84). -/
def allFields : List AtField := [.ID, .CH, .NI, .SM, .SN, .SO, .ST, .SP, .WH, .SH, .SL, .WR]

/-- lookup(b0, b1) of 45_inspector.md R221: the id of the field with these wire bytes, else 0xFF. -/
def lookup (b0 b1 : Byte) : Byte :=
  match allFields.find? (fun f => wire f == (b0, b1)) with
  | some f => fieldId f
  | none => Config.unknownField

/-- The operand string OPBUF[0..OPLEN) (R26). -/
def State.operand (s : State) : List Byte := s.opbuf.toList.take s.oplen

/-- The result string RBUF[0..RLEN) (R30). -/
def State.resultString (s : State) : List Byte := s.rbuf.toList.take s.rlen

/-- The buffered input IBUF[0..IN_COUNT) (R32). -/
def State.buffered (s : State) : List Byte := s.ibuf.take s.inCount

/-- OCOUNT = |OFIFO| (R34, R38). -/
def State.ocount (s : State) : Nat := s.ofifo.length

end Sys2Proof.Machine
end

