-- ==== Sys2Proof/Machine/Ops.lean ====
section
/-! DEFINITION. The shared operations that write the block's registers and buffers. -/

namespace Sys2Proof.Machine

/-- A count as the 32-bit word it is read or reported in: zero-extended (20_memory.md R51), and a free value when it
does not fit (log entry 7). -/
def countWord (n : Nat) : Word := if n < 2 ^ 32 then BitVec.ofNat 32 n else Config.wideCount n

/-- RESULT <- zext_32(n) (10_state.md R25). -/
def State.writeResult (s : State) (w : Word) : State := { s with result := w }

/-- RBUF[0..|bs|) <- bs; RLEN <- |bs|; RESULT <- |bs|: what ENC_AT, ENC_TX, EXTRACT, OUT_POP, FI_ATVAL and FI_RXPAY do
on success (70_reset_and_hazards.md R291, 30_encoding.md R93). -/
def State.writeResultString (s : State) (bs : List Byte) : State :=
  { s with rbuf := storeFront s.rbuf bs, rlen := bs.length, result := BitVec.ofNat 32 bs.length }

/-- OPBUF[0..|bs|) <- bs; OPLEN <- |bs| (40_operand_port.md R104). -/
def State.writeOperand (s : State) (bs : List Byte) : State :=
  { s with opbuf := storeFront s.opbuf bs, oplen := bs.length }

/-- OPBUF[OPLEN] <- a; OPLEN <- OPLEN + 1 (40_operand_port.md R103). -/
def State.pushOperand (s : State) (a : Byte) : State :=
  { s with opbuf := s.opbuf.setIfInBounds s.oplen a, oplen := s.oplen + 1 }

/-- IBUF[IN_COUNT..IN_COUNT+|bs|) <- bs; IN_COUNT <- IN_COUNT + |bs| (43_stream_parser.md R185, R186). -/
def State.appendInput (s : State) (bs : List Byte) : State :=
  { s with ibuf := storeList s.ibuf s.inCount bs, inCount := s.inCount + bs.length }

/-- Compaction with consumed boundary cb (43_stream_parser.md R181): the unconsumed bytes of the span move to the front
of IBUF, in order. -/
def State.compact (s : State) (cb : Nat) : State :=
  { s with
    ibuf := storeList s.ibuf 0 (s.buffered.drop cb)
    inCount := s.inCount - cb
    lastConsumed := cb }

end Sys2Proof.Machine
end

