-- ==== Sys2Proof/Machine/Checksum.lean ====
section
/-! DEFINITION. The checksum unit (41_checksum.md). -/

namespace Sys2Proof.Machine

/-- The sum of the bytes of s, as a natural number (R120). -/
def byteSum (s : List Byte) : Nat := (s.map BitVec.toNat).sum

/-- checksum(s) = 0xFF − (Σ s mod 256) (R120). -/
def checksum (s : List Byte) : Byte := BitVec.ofNat 8 (0xFF - byteSum s % 256)

/-- CSUM_CLR (R123). -/
def execCsumClr (s : State) : Host.Outcome State Fault Refusal := .next { s with acc := 0x00 }.endOk

/-- CSUM_ADD a (R124): the sum wraps modulo 256. -/
def execCsumAdd (a : Byte) (s : State) : Host.Outcome State Fault Refusal := .next { s with acc := s.acc + a }.endOk

/-- CSUM_READ (R125). -/
def execCsumRead (s : State) : Host.Outcome State Fault Refusal :=
  .next (s.writeResult (BitVec.ofNat 32 (0xFF - s.acc.toNat))).endOk

/-- CSUM_BUF (R126): ACC is neither read nor written. -/
def execCsumBuf (s : State) : Host.Outcome State Fault Refusal :=
  .next (s.writeResult ((checksum s.operand).zeroExtend 32)).endOk

end Sys2Proof.Machine
end

