-- ==== Sys2Proof/Machine/Encoder.lean ====
section
/-! DEFINITION. The field validator and the frame encoder (42_encoder.md). -/

namespace Sys2Proof.Machine

/-- num(s, lo, hi) of R141. -/
def numericRule (s : List Byte) (lo hi : Nat) : Bool :=
  s.length ≤ Config.numMaxLen && lo ≤ leMag s && leMag s ≤ hi

/-- nirule(s) of R142. -/
def nameRule (s : List Byte) : Bool := s.length ≤ 20 && s.all (fun b => b.toNat ≤ 0x7F)

/-- idrule(s) of R143. -/
def identifierRule (s : List Byte) : Bool := s.length ≤ 2

/-- The field's own rule (R140 to R145); those of SN, SO, ST, SP and WH are parameters (log entry 5). -/
def fieldRule : AtField → List Byte → Bool
  | .ID, s => identifierRule s
  | .CH, s => numericRule s 0x0B 0x1A
  | .NI, s => nameRule s
  | .SM, s => numericRule s 0x00 0x08
  | .SN, s => Config.fieldRuleSN s
  | .SO, s => Config.fieldRuleSO s
  | .ST, s => Config.fieldRuleST s
  | .SP, s => Config.fieldRuleSP s
  | .WH, s => Config.fieldRuleWH s
  | .SH, s => s.length == 0
  | .SL, s => s.length == 0
  | .WR, s => s.length == 0

/-- valid(f, s) of R140: the global size cap, then the field's own rule. -/
def valid (f : AtField) (s : List Byte) : Bool := s.length ≤ Config.maxAtValue && fieldRule f s

/-- A frame of type `type` with body `body`, checksum included (30_encoding.md R80). -/
def mkFrame (type : Byte) (body : List Byte) : List Byte :=
  [Config.startByte, hi8 (1 + body.length), lo8 (1 + body.length), type] ++ body ++ [checksum (type :: body)]

/-- The body of a Local AT Command (30_encoding.md R82): FRAME_ID, AT_NAME, VALUE. -/
def atBody (f : AtField) (v : List Byte) : List Byte := [Config.frameId, (wire f).1, (wire f).2] ++ v

/-- at_frame(f, v) of R147. -/
def atFrame (f : AtField) (v : List Byte) : List Byte := mkFrame Config.typeAtCommand (atBody f v)

/-- The body of a Transmit Request (30_encoding.md R83): FRAME_ID, DEST_ADDRESS, RESERVED, BROADCAST_RADIUS,
TRANSMIT_OPTIONS, PAYLOAD. -/
def txBody (d p : List Byte) : List Byte := [Config.frameId] ++ d ++ [0xFF, 0xFE, 0x00, 0xC0] ++ p

/-- tx_frame(d, p) of R148. -/
def txFrame (d p : List Byte) : List Byte := mkFrame Config.typeTransmitRequest (txBody d p)

/-- FV_CHECK f (R150); an f of 12 or more is illegal (R71), which the decoder has already refused (log entry 17). -/
def execFvCheck (f : Byte) (s : State) : Host.Outcome State Fault Refusal :=
  .next (match fieldOfId f with
    | some fld => (s.writeResult (if valid fld s.operand then 1 else 0)).endOk
    | none => s.raise .illegal)

/-- ENC_AT f (R151); an f of 12 or more as for FV_CHECK. -/
def execEncAt (f : Byte) (s : State) : Host.Outcome State Fault Refusal :=
  .next (match fieldOfId f with
    | some fld =>
      if valid fld s.operand then (s.writeResultString (atFrame fld s.operand)).endOk else s.raise .validationError
    | none => s.raise .illegal)

/-- ENC_TX (R152). -/
def execEncTx (s : State) : Host.Outcome State Fault Refusal :=
  .next (if s.oplen > Config.maxTxPayload then s.raise .payloadTooLarge
    else (s.writeResultString (txFrame s.dest.toList s.operand)).endOk)

end Sys2Proof.Machine
end

