-- ==== Sys2Proof/Machine/Scan.lean ====
section
/-! DEFINITION. The scan of frame_extractor_fsm (43_stream_parser.md R170 to R184), one function PARSE and EXTRACT
share. -/

namespace Sys2Proof.Machine

/-- The mode of a scan (R170): ALL with the room OFIFO has, or FIRST. -/
inductive ScanMode where
  | all (room : Nat)
  | first
  deriving DecidableEq, Repr

/-- Why a scan ended (R170); END until something else stops it. -/
inductive ScanStop where
  | endOfSpan | found | outFull
  deriving DecidableEq, Repr

/-- A scan under way: the transient registers of R35, the frames found so far and the stop reason. -/
structure Scan where
  regs : ScanRegs
  frames : List (List Byte)
  stop : ScanStop
  deriving DecidableEq, Repr

/-- Re-sync (R174): CB <- I; CS <- I; FSM <- LEN_HI; I <- I + 1. -/
def ScanRegs.resync (r : ScanRegs) : ScanRegs := { r with cb := r.i, cs := r.i, fsm := .lenHi, i := r.i + 1 }

/-- CB <- I + 1; FSM <- SEEK_START; I <- I + 1: the byte ends garbage, a frame or a discarded candidate (R173, R176 to
R178). -/
def ScanRegs.consume (r : ScanRegs) : ScanRegs := { r with cb := r.i + 1, fsm := .seekStart, i := r.i + 1 }

/-- SEEK_START (R173). -/
def ScanRegs.seek (r : ScanRegs) (b : Byte) : ScanRegs :=
  if b = Config.startByte then { r with cs := r.i, fsm := .lenHi, i := r.i + 1 } else r.consume

/-- LEN_HI on a byte other than 0x7E (R175). -/
def ScanRegs.takeLenHi (r : ScanRegs) (b : Byte) : ScanRegs := { r with lh := b, fsm := .lenLo, i := r.i + 1 }

/-- R176: whether a LENGTH is malformed, over the capacity bound or zero where zero is not accepted. -/
def lengthRejected (zeroOk : Bool) (l : Nat) : Bool := l + 4 > Config.maxFrame || (l == 0 && !zeroOk)

/-- LEN_LO on a byte other than 0x7E (R176). -/
def ScanRegs.takeLenLo (zeroOk : Bool) (r : ScanRegs) (b : Byte) : ScanRegs :=
  let l := BitVec.ofNat 16 (r.lh.toNat * 256 + b.toNat)
  if lengthRejected zeroOk l.toNat then { r with l := l }.consume
  else { r with l := l, k := 0, fsm := .body, i := r.i + 1 }

/-- BODY with K < L on a byte other than 0x7E (R177): STAGE[K] <- b. -/
def ScanRegs.takeBody (r : ScanRegs) (b : Byte) : ScanRegs :=
  { r with stage := r.stage.setIfInBounds r.k.toNat b, k := r.k + 1, i := r.i + 1 }

/-- The staged bytes STAGE[0..L) (R177). -/
def ScanRegs.staged (r : ScanRegs) : List Byte := r.stage.toList.take r.l.toNat

/-- BODY with K = L, the verify step (R177 to R179): the byte is compared with the checksum as it stands. `span` is s. -/
def Scan.verify (mode : ScanMode) (span : List Byte) (c : Scan) (b : Byte) : Scan :=
  if b = checksum c.regs.staged then
    let frame := slice span c.regs.cs (c.regs.i + 1)
    match mode with
    | .all room =>
      if c.frames.length = room then { c with stop := .outFull }
      else { c with regs := c.regs.consume, frames := c.frames ++ [frame] }
    | .first => { regs := c.regs.consume, frames := c.frames ++ [frame], stop := .found }
  else { c with regs := c.regs.consume }

/-- One iteration of R172's loop on the byte b = s[I]. -/
def Scan.byte (mode : ScanMode) (zeroOk : Bool) (span : List Byte) (c : Scan) (b : Byte) : Scan :=
  match c.regs.fsm with
  | .seekStart => { c with regs := c.regs.seek b }
  | .lenHi => { c with regs := if b = Config.startByte then c.regs.resync else c.regs.takeLenHi b }
  | .lenLo => { c with regs := if b = Config.startByte then c.regs.resync else c.regs.takeLenLo zeroOk b }
  | .body =>
    if c.regs.k.toNat = c.regs.l.toNat then c.verify mode span b
    else { c with regs := if b = Config.startByte then c.regs.resync else c.regs.takeBody b }

/-- R172's loop over the bytes not yet examined, until one of them stops it. -/
def Scan.loop (mode : ScanMode) (zeroOk : Bool) (span : List Byte) : Scan → List Byte → Scan
  | c, [] => c
  | c, b :: rest =>
    let c' := c.byte mode zeroOk span b
    if c'.stop = .endOfSpan then Scan.loop mode zeroOk span c' rest else c'

/-- The registers a scan begins with (R36): FSM = SEEK_START, CB = 0, I = 0; the others as the last scan left them. -/
def ScanRegs.start (r : ScanRegs) : ScanRegs := { r with fsm := .seekStart, cb := 0, i := 0 }

/-- scan(s, n, mode, room) of R172, over the transient registers r; the consumed boundary is `regs.cb`. -/
def scanSpan (mode : ScanMode) (zeroOk : Bool) (r : ScanRegs) (span : List Byte) : Scan :=
  Scan.loop mode zeroOk span { regs := r.start, frames := [], stop := .endOfSpan } span

/-- The scan of the buffered input of state s (R170). -/
def State.runScan (s : State) (mode : ScanMode) : Scan :=
  scanSpan mode s.params.zeroLenAccept s.scan s.buffered

/-- What PARSE and EXTRACT commit after a scan: the compaction of R181, and the transient registers with FSM back in
SEEK_START (R36). -/
def State.commitScan (s : State) (c : Scan) : State :=
  { s.compact c.regs.cb with scan := { c.regs with fsm := .seekStart } }

end Sys2Proof.Machine
end

