-- ==== Sys2Proof/Machine/Extractor.lean ====
section
/-! DEFINITION. The single-frame extractor (44_extractor.md R210, R211). -/

namespace Sys2Proof.Machine

/-- EXTRACT (R210): the compaction is committed on NOT_FOUND too (R211, R253). -/
def execExtract (s : State) : Host.Outcome State Fault Refusal :=
  let c := s.runScan .first
  let t := s.commitScan c
  .next (if c.stop = .found then (t.writeResultString (c.frames.headD [])).endOk else t.raise .notFound)

end Sys2Proof.Machine
end

