-- ==== Sys2Proof/Machine/Inspector.lean ====
section
/-! DEFINITION. The frame inspector (45_inspector.md). The frame is f = OPBUF[0..m) with m = OPLEN (R220); a failed
check raises RANGE and writes STATUS only. -/

namespace Sys2Proof.Machine

/-- The size of f from its LENGTH field, be16(f, 1) + 4 (R222). -/
def totalSize (f : List Byte) : Nat := be16 f 1 + 4

/-- A command that reads the number `value` out of the operand frame when `held` says the frame holds the field, and
raises RANGE when it does not (R220). -/
def State.inspect (s : State) (held : Prop) [Decidable held] (value : Nat) : State :=
  if held then (s.writeResult (BitVec.ofNat 32 value)).endOk else s.raise .range

/-- The same for a command that reads the byte string `value` into RBUF. -/
def State.inspectString (s : State) (held : Prop) [Decidable held] (value : List Byte) : State :=
  if held then (s.writeResultString value).endOk else s.raise .range

/-- FI_SIZE (R222). -/
def execFiSize (s : State) : Host.Outcome State Fault Refusal :=
  .next (s.inspect (3 ≤ s.oplen) (totalSize s.operand))

/-- FI_TYPE (R223). -/
def execFiType (s : State) : Host.Outcome State Fault Refusal :=
  .next (s.inspect (4 ≤ s.oplen) (byteAt s.operand 3).toNat)

/-- FI_ATVSZ (R224). -/
def execFiAtvsz (s : State) : Host.Outcome State Fault Refusal :=
  .next (s.inspect (3 ≤ s.oplen ∧ 5 ≤ be16 s.operand 1) (be16 s.operand 1 - 5))

/-- FI_ATVAL (R225): the value f[8..8+vs) with vs = LENGTH − 5. -/
def execFiAtval (s : State) : Host.Outcome State Fault Refusal :=
  let vs := be16 s.operand 1 - 5
  .next (s.inspectString (3 ≤ s.oplen ∧ 5 ≤ be16 s.operand 1 ∧ 8 + vs ≤ s.oplen) (slice s.operand 8 (8 + vs)))

/-- FI_ATCMD (R226). -/
def execFiAtcmd (s : State) : Host.Outcome State Fault Refusal :=
  .next (s.inspect (7 ≤ s.oplen) (lookup (byteAt s.operand 5) (byteAt s.operand 6)).toNat)

/-- FI_ATSTAT (R227): the byte as it stands (30_encoding.md R88). -/
def execFiAtstat (s : State) : Host.Outcome State Fault Refusal :=
  .next (s.inspect (8 ≤ s.oplen) (byteAt s.operand 7).toNat)

/-- FI_RXPAY (R228): the payload f[15..t−1) with t the total size. -/
def execFiRxpay (s : State) : Host.Outcome State Fault Refusal :=
  let t := totalSize s.operand
  .next (s.inspectString (3 ≤ s.oplen ∧ 16 ≤ t ∧ t ≤ s.oplen) (slice s.operand 15 (t - 1)))

/-- PKT_COUNT n (R229): ceil(n / 65) = (n + 64) div 65. -/
def execPktCount (n : Imm) (s : State) : Host.Outcome State Fault Refusal :=
  .next (s.writeResult (BitVec.ofNat 32 ((n.toNat + (Config.maxTxPayload - 1)) / Config.maxTxPayload))).endOk

end Sys2Proof.Machine
end

