-- ==== Sys2Proof/Machine/OperandPort.lean ====
section
/-! DEFINITION. The operand port commands (40_operand_port.md). -/

namespace Sys2Proof.Machine

/-- NOP (R101). -/
def execNop (s : State) : Host.Outcome State Fault Refusal := .next s.endOk

/-- OPB_CLR (R102): the bytes of OPBUF stay, out of sight. -/
def execOpbClr (s : State) : Host.Outcome State Fault Refusal := .next { s with oplen := 0 }.endOk

/-- OPB_PUSH a (R103). -/
def execOpbPush (a : Byte) (s : State) : Host.Outcome State Fault Refusal :=
  .next (if s.oplen = Config.maxFrame then s.raise .full else (s.pushOperand a).endOk)

/-- OPB_FROM_RBUF (R104). -/
def execOpbFromRbuf (s : State) : Host.Outcome State Fault Refusal := .next (s.writeOperand s.resultString).endOk

/-- DEST_SET index, a (R105); an index of 8 or more is illegal (30_encoding.md R71), which the decoder has already
refused (log entry 17). -/
def execDestSet (index : Imm) (a : Byte) (s : State) : Host.Outcome State Fault Refusal :=
  .next (if index.toNat < Config.destSize then { s with dest := s.dest.setIfInBounds index.toNat a }.endOk
    else s.raise .illegal)

end Sys2Proof.Machine
end

