-- ==== Sys2Proof/Machine/StreamParser.lean ====
section
/-! DEFINITION. The commands that feed IBUF, scan it into OFIFO and drain OFIFO (43_stream_parser.md R185 to R188). -/

namespace Sys2Proof.Machine

/-- IN_PUSH a (R185). -/
def execInPush (a : Byte) (s : State) : Host.Outcome State Fault Refusal :=
  .next (if s.inCount = s.params.inCap then s.raise .full else (s.appendInput [a]).endOk)

/-- IN_APPEND (R186): all or nothing. -/
def execInAppend (s : State) : Host.Outcome State Fault Refusal :=
  .next (if s.inCount + s.oplen > s.params.inCap then s.raise .full else (s.appendInput s.operand).endOk)

/-- PARSE (R187): a FULL commits what the scan found before the stop (R253). -/
def execParse (s : State) : Host.Outcome State Fault Refusal :=
  let c := s.runScan (.all (s.params.outDepth - s.ocount))
  let t := { s.commitScan c with ofifo := s.ofifo ++ c.frames, result := countWord c.frames.length }
  .next (if c.stop = .outFull then t.raise .full else t.endOk)

/-- OUT_POP (R188). -/
def execOutPop (s : State) : Host.Outcome State Fault Refusal :=
  .next (match s.ofifo with
    | [] => s.raise .empty
    | fr :: rest => ({ s with ofifo := rest }.writeResultString fr).endOk)

end Sys2Proof.Machine
end

