-- ==== Sys2Proof/Machine/Dispatch.lean ====
section
/-! DEFINITION. exec: the meaning of each command (30_encoding.md R74). -/

namespace Sys2Proof.Machine

def exec (i : Instr) (s : State) : Host.Outcome State Fault Refusal :=
  match i with
  | .nop => Sys2Proof.Machine.execNop s
  | .opbClr => Sys2Proof.Machine.execOpbClr s
  | .opbPush a => Sys2Proof.Machine.execOpbPush a s
  | .opbFromRbuf => Sys2Proof.Machine.execOpbFromRbuf s
  | .destSet index a => Sys2Proof.Machine.execDestSet index a s
  | .csumClr => Sys2Proof.Machine.execCsumClr s
  | .csumAdd a => Sys2Proof.Machine.execCsumAdd a s
  | .csumRead => Sys2Proof.Machine.execCsumRead s
  | .csumBuf => Sys2Proof.Machine.execCsumBuf s
  | .fvCheck f => Sys2Proof.Machine.execFvCheck f s
  | .encAt f => Sys2Proof.Machine.execEncAt f s
  | .encTx => Sys2Proof.Machine.execEncTx s
  | .inPush a => Sys2Proof.Machine.execInPush a s
  | .inAppend => Sys2Proof.Machine.execInAppend s
  | .parse => Sys2Proof.Machine.execParse s
  | .extract => Sys2Proof.Machine.execExtract s
  | .outPop => Sys2Proof.Machine.execOutPop s
  | .fiSize => Sys2Proof.Machine.execFiSize s
  | .fiType => Sys2Proof.Machine.execFiType s
  | .fiAtvsz => Sys2Proof.Machine.execFiAtvsz s
  | .fiAtval => Sys2Proof.Machine.execFiAtval s
  | .fiAtcmd => Sys2Proof.Machine.execFiAtcmd s
  | .fiAtstat => Sys2Proof.Machine.execFiAtstat s
  | .fiRxpay => Sys2Proof.Machine.execFiRxpay s
  | .pktCount n => Sys2Proof.Machine.execPktCount n s

end Sys2Proof.Machine
end

