-- ==== Sys2Proof/Machine/HostPort.lean ====
section
/-! DEFINITION. The host's side: the register map and which accesses are admitted (20_memory.md R51 to R55), issuing a
command word (30_encoding.md R71), and reset (70_reset_and_hazards.md R280, R281). -/

namespace Sys2Proof.Machine

/-- The offset of CMD (R51). -/
abbrev cmdOffset : Nat := 0x000

/-- MemRead(off, 4) (R51 to R53): the word at offset off of the register map. A register narrower than 32 bits is
zero-extended, a byte beyond OPLEN or RLEN reads 0, and so does a reserved offset. -/
def hostRead (s : State) (off : Nat) : Word :=
  if off = 0x004 then s.status.zeroExtend 32
  else if off = 0x008 then s.result
  else if off = 0x00C then s.acc.zeroExtend 32
  else if off = 0x010 then BitVec.ofNat 32 s.oplen
  else if off = 0x014 then BitVec.ofNat 32 s.rlen
  else if off = 0x018 then countWord s.inCount
  else if off = 0x01C then countWord s.ocount
  else if off = 0x020 then countWord s.lastConsumed
  else if 0x040 ≤ off ∧ off < 0x060 then (byteAt s.dest.toList ((off - 0x040) / 4)).zeroExtend 32
  else if 0x200 ≤ off ∧ off < 0x400 then (byteAt s.operand ((off - 0x200) / 4)).zeroExtend 32
  else if 0x400 ≤ off ∧ off < 0x600 then (byteAt s.resultString ((off - 0x400) / 4)).zeroExtend 32
  else 0

/-- The accesses R55 admits: an aligned 32-bit read in the window and a 32-bit write at CMD. Reset is not an access of
the window; it is admitted between commands (R281), which is where every step stands. -/
def HostAccess.admitted : HostAccess → Bool
  | .write off width _ => off == cmdOffset && width == 4
  | .read off width => off < Config.windowSize && off % 4 == 0 && width == 4
  | .reset => true

/-- Executing the command word w (R71): an illegal word raises ILLEGAL, whatever made it illegal (R75). -/
def issue (w : Word) (s : State) : Host.Outcome State Fault Refusal :=
  match decode w with
  | .ok i => exec i s
  | .error _ => .next (s.raise .illegal)

/-- Reset (R280): every piece of the block's state takes its reset value. The parameters and the host's own side are
not the block's state (log entry 12). -/
def State.afterReset (s : State) : State :=
  { State.resetWith s.params with pending := s.pending, hostData := s.hostData }

/-- Serving one access of the host: R54, R52, R281, and a refusal for an access that is not admitted (R55). -/
def serve (a : HostAccess) (s : State) : Host.Outcome State Fault Refusal :=
  if a.admitted then
    match a with
    | .write _ _ w => issue w s
    | .read off _ => .next { s with hostData := s.hostData ++ [hostRead s off] }
    | .reset => .next s.afterReset
  else .refused (.accessNotAdmitted a)

end Sys2Proof.Machine
end

