-- ==== Sys2Proof/Machine/Step.lean ====
section
/-! DEFINITION. One step of the machine: the block serves the host's oldest access, to completion (20_memory.md R54,
R60); with none pending it is idle (60_exceptions.md R266). -/

namespace Sys2Proof.Machine

/-- One step. The block fetches nothing (10_state.md R21): the next command is the word of the host's next CMD write. -/
def step (s : State) : Host.Outcome State Fault Refusal :=
  match s.pending with
  | [] => .next s
  | a :: rest => serve a { s with pending := rest }

/-- s with the host's next access a 32-bit write of the word w to CMD (log entry 1): the very next step runs it. -/
def State.withFetchWord (s : State) (nbits w : Nat) : State :=
  { s with pending := .write cmdOffset 4 (BitVec.ofNat 32 (w % 2 ^ nbits)) :: s.pending }

end Sys2Proof.Machine
end

