-- ==== Sys2Proof/Machine/Assembler.lean ====
section
/-! DEFINITION. Assembler syntax and pseudo-instructions (30_encoding.md R77, R78): from a line of text to the command
words it places in the program. It has no effect on the block. Points R77 leaves open are in log entry 19. -/

namespace Sys2Proof.Machine

/-- OPB_LOAD bs (R78). -/
def opbLoad (bs : List Byte) : List Instr := .opbClr :: bs.map .opbPush

/-- DEST_LOAD d0, ..., d7 (R78): DEST_SET 0, d0, ..., DEST_SET 7, d7. -/
def destLoad (ds : List Byte) : List Instr := ds.mapIdx fun i d => .destSet (BitVec.ofNat 16 i) d

/-- IN_LOAD bs (R78). -/
def inLoad (bs : List Byte) : List Instr := opbLoad bs ++ [.inAppend]

/-- CSUM_OF bs (R78). -/
def csumOf (bs : List Byte) : List Instr := .csumClr :: bs.map .csumAdd ++ [.csumRead]

/-- An operand as it is written: a number (a character 'b' is its ASCII code), a field name, or a text. -/
inductive AsmOperand where
  | num (n : Nat)
  | name (s : String)
  | text (cs : List Char)
  deriving DecidableEq, Repr

/-- The lexical items of a line. -/
inductive AsmToken where
  | word (cs : List Char)
  | char (c : Char)
  | text (cs : List Char)
  | comma
  deriving DecidableEq, Repr

/-- A word token from its characters in reverse, none when there are no characters. -/
def flushWord (cur : List Char) (rest : List AsmToken) : List AsmToken :=
  if cur.isEmpty then rest else .word cur.reverse :: rest

/-- The tokens of a line; `cur` is the word being read and `txt` the text being read, both reversed. A `;` starts a
comment (R77). -/
def tokens : List Char → List Char → Option (List Char) → Option (List AsmToken)
  | [], cur, none => some (flushWord cur [])
  | [], _, some _ => none
  | '"' :: rest, _, some txt => (tokens rest [] none).map (.text txt.reverse :: ·)
  | c :: rest, _, some txt => tokens rest [] (some (c :: txt))
  | ';' :: _, cur, none => some (flushWord cur [])
  | ' ' :: rest, cur, none => (tokens rest [] none).map (flushWord cur)
  | ',' :: rest, cur, none => (tokens rest [] none).map fun ts => flushWord cur (.comma :: ts)
  | '\'' :: c :: '\'' :: rest, [], none => (tokens rest [] none).map (.char c :: ·)
  | '"' :: rest, [], none => tokens rest [] (some [])
  | c :: rest, cur, none => tokens rest (c :: cur) none

/-- The value of a digit of base 10 or 16. -/
def digitValue (base : Nat) (c : Char) : Option Nat :=
  let v := if '0' ≤ c ∧ c ≤ '9' then c.toNat - '0'.toNat
    else if 'a' ≤ c ∧ c ≤ 'f' then c.toNat - 'a'.toNat + 10
    else if 'A' ≤ c ∧ c ≤ 'F' then c.toNat - 'A'.toNat + 10
    else base
  if v < base then some v else none

/-- The number a string of digits writes, after the value `acc` of the digits before it. -/
def digitsValue (base : Nat) : Nat → List Char → Option Nat
  | acc, [] => some acc
  | acc, c :: cs => (digitValue base c).bind fun v => digitsValue base (acc * base + v) cs

/-- A number, decimal or 0x hexadecimal (R77). -/
def number : List Char → Option Nat
  | '0' :: 'x' :: c :: cs => digitsValue 16 0 (c :: cs)
  | c :: cs => digitsValue 10 0 (c :: cs)
  | [] => none

/-- The ASCII code of a character (R77, R78). -/
def asciiCode (c : Char) : Option Nat := if c.toNat < 128 then some c.toNat else none

/-- One operand token. -/
def operandOf : AsmToken → Option AsmOperand
  | .word cs => some (match number cs with
    | some n => .num n
    | none => .name (String.ofList cs))
  | .char c => (asciiCode c).map .num
  | .text cs => some (.text cs)
  | .comma => none

/-- Operands separated by commas (R77). -/
def operandList : List AsmToken → Option (List AsmOperand)
  | [] => some []
  | [t] => (operandOf t).map ([·])
  | t :: .comma :: t' :: rest => do
    let o ← operandOf t
    let os ← operandList (t' :: rest)
    pure (o :: os)
  | _ => none

/-- A byte operand. -/
def byteOperand : AsmOperand → Option Byte
  | .num n => if n < 256 then some (BitVec.ofNat 8 n) else none
  | _ => none

/-- A 16-bit operand. -/
def immOperand : AsmOperand → Option Imm
  | .num n => if n < 65536 then some (BitVec.ofNat 16 n) else none
  | _ => none

/-- The field a name stands for (R77, R84). -/
def fieldOfName : String → Option AtField
  | "ID" => some .ID
  | "CH" => some .CH
  | "NI" => some .NI
  | "SM" => some .SM
  | "SN" => some .SN
  | "SO" => some .SO
  | "ST" => some .ST
  | "SP" => some .SP
  | "WH" => some .WH
  | "SH" => some .SH
  | "SL" => some .SL
  | "WR" => some .WR
  | _ => none

/-- A field operand: a field name or a number 0 to 11 (R77). -/
def fieldOperand : AsmOperand → Option Byte
  | .num n => if n < Config.nFields then some (BitVec.ofNat 8 n) else none
  | .name s => (fieldOfName s).map fieldId
  | .text _ => none

/-- The bytes an OPB_LOAD lists: byte operands, or the ASCII codes of one text (R78). -/
def loadBytes : List AsmOperand → Option (List Byte)
  | [.text cs] => cs.mapM fun c => (asciiCode c).map (BitVec.ofNat 8)
  | os => os.mapM byteOperand

/-- The commands a mnemonic with operands stands for: one command, or a pseudo-instruction's expansion (R77, R78). -/
def commandsOf (mnemonic : String) (os : List AsmOperand) : Option (List Instr) :=
  match mnemonic, os with
  | "NOP", [] => some [.nop]
  | "OPB_CLR", [] => some [.opbClr]
  | "OPB_PUSH", [o] => (byteOperand o).map ([.opbPush ·])
  | "OPB_FROM_RBUF", [] => some [.opbFromRbuf]
  | "DEST_SET", [o, o'] => do
    let i ← immOperand o
    let a ← byteOperand o'
    if i.toNat < Config.destSize then some [.destSet i a] else none
  | "CSUM_CLR", [] => some [.csumClr]
  | "CSUM_ADD", [o] => (byteOperand o).map ([.csumAdd ·])
  | "CSUM_READ", [] => some [.csumRead]
  | "CSUM_BUF", [] => some [.csumBuf]
  | "FV_CHECK", [o] => (fieldOperand o).map ([.fvCheck ·])
  | "ENC_AT", [o] => (fieldOperand o).map ([.encAt ·])
  | "ENC_TX", [] => some [.encTx]
  | "IN_PUSH", [o] => (byteOperand o).map ([.inPush ·])
  | "IN_APPEND", [] => some [.inAppend]
  | "PARSE", [] => some [.parse]
  | "EXTRACT", [] => some [.extract]
  | "OUT_POP", [] => some [.outPop]
  | "FI_SIZE", [] => some [.fiSize]
  | "FI_TYPE", [] => some [.fiType]
  | "FI_ATVSZ", [] => some [.fiAtvsz]
  | "FI_ATVAL", [] => some [.fiAtval]
  | "FI_ATCMD", [] => some [.fiAtcmd]
  | "FI_ATSTAT", [] => some [.fiAtstat]
  | "FI_RXPAY", [] => some [.fiRxpay]
  | "PKT_COUNT", [o] => (immOperand o).map ([.pktCount ·])
  | "OPB_LOAD", os => do
    let bs ← loadBytes os
    if bs.length ≤ Config.maxFrame then some (opbLoad bs) else none
  | "DEST_LOAD", os => do
    let ds ← os.mapM byteOperand
    if ds.length = Config.destSize then some (destLoad ds) else none
  | "IN_LOAD", os => do
    let bs ← os.mapM byteOperand
    if bs.length ≤ Config.maxFrame then some (inLoad bs) else none
  | "CSUM_OF", os => (os.mapM byteOperand).map csumOf
  | _, _ => none

/-- The words a line of assembler places in the program (R77, R78); an empty line places none, and a line of no form
of R77 or R78 is rejected. -/
def assembleLine (line : String) : Option (List Word) := do
  match ← tokens line.toList [] none with
  | [] => some []
  | .word m :: ts =>
    let os ← operandList ts
    if m = ['.', 'w', 'o', 'r', 'd'] then
      match os with
      | [.num n] => if n < 2 ^ 32 then some [BitVec.ofNat 32 n] else none
      | _ => none
    else (commandsOf (String.ofList m) os).map (·.map encode)
  | _ => none

end Sys2Proof.Machine
end

