-- ==== Sys2Proof/Safety.lean ====
section
/-! DEFINITION. The terms claims are made in: which states are good (the invariant), which byte strings are frames, what
an observer can see, and running several commands. -/

namespace Sys2Proof.Machine

/-- Running commands one after another (10_state.md R21: the sequence the host writes is the program). -/
def runCommands : List Instr → State → Host.Outcome State Fault Refusal
  | [], s => .next s
  | i :: is, s =>
    match exec i s with
    | .next t => runCommands is t
    | .fault r => .fault r
    | .refused r => .refused r

/-- f is checksum-valid (41_checksum.md R122): with n = be16(f, 1) + 4 its length, f[n−1] = checksum(f[3..n−1)). -/
def ChecksumValid (f : List Byte) : Prop :=
  f.length = be16 f 1 + 4 ∧ byteAt f (f.length - 1) = checksum (slice f 3 (f.length - 1))

/-- f is a frame the scan may emit (43_stream_parser.md R180): it opens with 0x7E, its LENGTH is its length less 4 and
at most 124, zero only when zero is accepted, it is checksum-valid, and no byte between the START and the checksum byte
is 0x7E. -/
def Emittable (zeroOk : Bool) (f : List Byte) : Prop :=
  byteAt f 0 = 0x7E ∧ ChecksumValid f ∧ be16 f 1 ≤ 124 ∧ (be16 f 1 = 0 → zeroOk = true) ∧
    ∀ j, 1 ≤ j → j + 1 < f.length → byteAt f j ≠ 0x7E

/-- f is a frame the encoder may write (42_encoder.md R153, 30_encoding.md R80). -/
def WireFrame (f : List Byte) : Prop :=
  byteAt f 0 = 0x7E ∧ ChecksumValid f ∧ f.length ≤ 128

/-- The frames a scan of `span` finds when OFIFO has room for all of them (R170, R172). -/
def framesIn (zeroOk : Bool) (span : List Byte) : List (List Byte) :=
  (scanSpan (.all (span.length + 1)) zeroOk ScanRegs.reset span).frames

/-- The bytes such a scan leaves unconsumed (R181). -/
def leftIn (zeroOk : Bool) (span : List Byte) : List Byte :=
  span.drop (scanSpan (.all (span.length + 1)) zeroOk ScanRegs.reset span).regs.cb

/-- p is a partial candidate (R180, R182): a START, no other 0x7E, and a LENGTH that is not complete, or not rejected
and not yet filled by the bytes after it. -/
def PartialCandidate (zeroOk : Bool) (p : List Byte) : Prop :=
  p ≠ [] ∧ byteAt p 0 = 0x7E ∧ (∀ j, 1 ≤ j → j < p.length → byteAt p j ≠ 0x7E) ∧
    (p.length ≤ 2 ∨ (be16 p 1 ≤ 124 ∧ (be16 p 1 = 0 → zeroOk = true) ∧ p.length < be16 p 1 + 4))

/-- A Local AT Command Response (30_encoding.md R85). -/
def atResponseFrame (id n0 n1 st : Byte) (v : List Byte) : List Byte :=
  mkFrame Config.typeAtResponse ([id, n0, n1, st] ++ v)

/-- A Receive Packet (30_encoding.md R86) with 8 address bytes and 2 reserved bytes. -/
def receivePacketFrame (addr : Vector Byte 8) (r0 r1 opts : Byte) (payload : List Byte) : List Byte :=
  mkFrame Config.typeReceivePacket (addr.toList ++ [r0, r1, opts] ++ payload)

/-- w is illegal by one of the points of 30_encoding.md R75, read off its numbers: an unlisted opcode, a reserved field
that is not zero (formats of R74), a field id of 12 or more, or a DEST_SET index of 8 or more. -/
def IllegalWord (w : Word) : Prop :=
  let op := w.toNat % 256
  let a := w.toNat / 256 % 256
  let imm := w.toNat / 65536
  (0x05 ≤ op ∧ op ≤ 0x0F) ∨ (0x14 ≤ op ∧ op ≤ 0x1F) ∨ (0x23 ≤ op ∧ op ≤ 0x2F) ∨ (0x35 ≤ op ∧ op ≤ 0x3F) ∨ 0x48 ≤ op ∨
  (op ∈ [0x00, 0x01, 0x03, 0x10, 0x12, 0x13, 0x22, 0x31, 0x32, 0x33, 0x34, 0x40, 0x41, 0x42, 0x43, 0x44, 0x45, 0x46] ∧
    (a ≠ 0 ∨ imm ≠ 0)) ∨
  (op ∈ [0x02, 0x11, 0x20, 0x21, 0x30] ∧ imm ≠ 0) ∨ (op = 0x47 ∧ a ≠ 0) ∨
  ((op = 0x20 ∨ op = 0x21) ∧ 12 ≤ a) ∨ (op = 0x04 ∧ 8 ≤ imm)

/-- The values 70_reset_and_hazards.md R280 gives after reset (its unspecified bytes are left out). -/
def State.AtReset (s : State) : Prop :=
  s.status = 0x00 ∧ s.result = 0x00000000 ∧ s.acc = 0x00 ∧ s.oplen = 0 ∧ (∀ i : Fin 8, s.dest[i] = 0x00) ∧ s.rlen = 0 ∧
    s.inCount = 0 ∧ s.lastConsumed = 0 ∧ s.ofifo = [] ∧ s.ocount = 0 ∧ s.scan.fsm = .seekStart

/-- t is s after a success that writes the byte string bs to RBUF: RBUF[0..|bs|), RLEN, RESULT and STATUS are written and
nothing else is. -/
def WritesResultString (s t : State) (bs : List Byte) : Prop :=
  t.resultString = bs ∧ t.rlen = bs.length ∧ t.result.toNat = bs.length ∧
    (∀ (i : Nat) (h : i < 128), bs.length ≤ i → t.rbuf[i] = s.rbuf[i]) ∧
    t = { s with rbuf := t.rbuf, rlen := t.rlen, result := t.result, status := 0x00 }

/-- The bytes a command delivers to IBUF in state s (43_stream_parser.md R185, R186). -/
def State.deliveredBy (s : State) : Instr → List Byte
  | .inPush a => [a]
  | .inAppend => s.operand
  | _ => []

/-- The states the block can be in: the parameters are legal (R7), every length and count is within its register's
range (R26, R30, R32, R33), IBUF has IN_CAP bytes, OFIFO holds at most OUT_DEPTH frames, each emittable (R34), STATUS
holds one of the eight codes (R24), and FSM is SEEK_START between commands (R36). -/
structure State.Inv (s : State) : Prop where
  params : s.params.Legal
  status : ∃ st, s.status = statusCode st
  oplen : s.oplen ≤ 128
  rlen : s.rlen ≤ 128
  ibuf : s.ibuf.length = s.params.inCap
  inCount : s.inCount ≤ s.params.inCap
  lastConsumed : s.lastConsumed ≤ s.params.inCap
  ofifo : s.ofifo.length ≤ s.params.outDepth
  frames : ∀ f ∈ s.ofifo, Emittable s.params.zeroLenAccept f
  fsm : s.scan.fsm = .seekStart

/-- What the block's registers are to an observer: every register of R38, with the buffers OPBUF, RBUF and IBUF seen
only below their lengths (R53), the parameters and the host's side. The transient registers of R35 are left out (R36). -/
structure State.SameVisible (s t : State) : Prop where
  params : s.params = t.params
  status : s.status = t.status
  result : s.result = t.result
  acc : s.acc = t.acc
  oplen : s.oplen = t.oplen
  operand : s.operand = t.operand
  dest : s.dest = t.dest
  rlen : s.rlen = t.rlen
  resultString : s.resultString = t.resultString
  inCount : s.inCount = t.inCount
  buffered : s.buffered = t.buffered
  lastConsumed : s.lastConsumed = t.lastConsumed
  ofifo : s.ofifo = t.ofifo
  pending : s.pending = t.pending
  hostData : s.hostData = t.hostData

end Sys2Proof.Machine
end

