-- ==== Sys2Proof/Certificates/Slice0/Obligations.lean ====
section
/-! DEFINITION. The statements for the provers (OBLIGATIONS.json), from the numbered rules of spec/. Where a statement
names the next state as `{ s with ... }`, that is its frame: every field not listed keeps its value. -/

open Sys2Proof Sys2Proof.Machine

/-! ## Command words -/

/-- Words written out from 30_encoding.md R70 to R75, at least one of each sub-block of R74, decode to the commands they
stand for. -/
def Obligations.SpecWordsDecodeToTheirCommands : Prop :=
  decode 0x00000000 = .ok .nop ∧ decode 0x00000A02 = .ok (.opbPush 0x0A) ∧
  decode 0x00070104 = .ok (.destSet 7 0x01) ∧ decode 0x00000111 = .ok (.csumAdd 0x01) ∧
  decode 0x00000221 = .ok (.encAt 2) ∧ decode 0x00007E30 = .ok (.inPush 0x7E) ∧
  decode 0x00000034 = .ok .outPop ∧ decode 0x00000033 = .ok .extract ∧ decode 0x00000046 = .ok .fiRxpay ∧ decode 0x00820047 = .ok (.pktCount 130) ∧
  decode 0x00000005 = .error .undefinedOpcode ∧ decode 0x00010002 = .error .reservedFieldNonZero ∧
  decode 0x00000C20 = .error .operandOutOfRange ∧ decode 0x00080004 = .error .operandOutOfRange

/-- R72 to R74: the decoder reads back every legal command from its word. -/
def Obligations.DecodeInvertsEncode : Prop :=
  ∀ i : Instr, i.wellFormed = true → decode (encode i) = .ok i

/-- R72 to R76: a word that decodes is the word of a legal command, so each command has one word. -/
def Obligations.DecodedWordIsTheCommandsWord : Prop :=
  ∀ (w : Word) (i : Instr), decode w = .ok i → i.wellFormed = true ∧ encode i = w

/-- R75: the illegal words are exactly those it lists, each raises ILLEGAL with no other effect, and NOP, the all-zero
word, is the only command with no effect but STATUS <- OK: a command of any other opcode has another effect somewhere. -/
def Obligations.IllegalWordsRaiseIllegalOnly : Prop :=
  (∀ w : Word, IllegalWord w ↔ ∀ i, decode w ≠ .ok i) ∧
  (∀ (s : State) (w : Word) (rest : List HostAccess), s.pending = .write 0x000 4 w :: rest → IllegalWord w →
    step s = .next { s with pending := rest, status := 0x07 }) ∧
  decode 0x00000000 = .ok .nop ∧ (∀ s : State, exec .nop s = .next { s with status := 0x00 }) ∧
  (∀ i : Instr, i.wellFormed = true → i.opcode ≠ 0x00 →
    ∃ (j : Instr) (s t : State), j.opcode = i.opcode ∧ j.wellFormed = true ∧ exec j s = .next t ∧
      t ≠ { s with status := 0x00 })

/-! ## The host port -/

/-- R54, R71: a step runs the command the oldest CMD write carries, on the state without that write, and nothing else. -/
def Obligations.StepRunsTheDecodedCommand : Prop :=
  ∀ (s : State) (w : Word) (i : Instr) (rest : List HostAccess),
    s.pending = .write 0x000 4 w :: rest → decode w = .ok i → step s = exec i { s with pending := rest }

/-- The model's own step when the host has no access pending (log entry 3; 60_exceptions.md R266: "It is idle whenever
no command is executing"). -/
def Obligations.StepWithNothingPendingIsIdle : Prop :=
  ∀ s : State, s.pending = [] → step s = .next s

/-- The values of the register map, R51 and R53, when every count fits its 32-bit word (the others are free values, log
entry 7). -/
def Obligations.RegisterMapReadsTheRegisters : Prop :=
  ∀ s : State, s.Inv → s.params.inCap < 2 ^ 32 → s.params.outDepth < 2 ^ 32 →
    hostRead s 0x000 = 0 ∧ (hostRead s 0x004).toNat = s.status.toNat ∧ hostRead s 0x008 = s.result ∧
    (hostRead s 0x00C).toNat = s.acc.toNat ∧ (hostRead s 0x010).toNat = s.oplen ∧ (hostRead s 0x014).toNat = s.rlen ∧
    (hostRead s 0x018).toNat = s.inCount ∧ (hostRead s 0x01C).toNat = s.ofifo.length ∧
    (hostRead s 0x020).toNat = s.lastConsumed ∧
    (∀ i : Fin 8, (hostRead s (0x040 + 4 * i.val)).toNat = s.dest[i].toNat) ∧
    (∀ i : Fin 128, (hostRead s (0x200 + 4 * i.val)).toNat = if i.val < s.oplen then s.opbuf[i].toNat else 0) ∧
    (∀ i : Fin 128, (hostRead s (0x400 + 4 * i.val)).toNat = if i.val < s.rlen then s.rbuf[i].toNat else 0) ∧
    (∀ off, off < 0x1000 → off % 4 = 0 → 0x020 < off → ¬ (0x040 ≤ off ∧ off < 0x060) → ¬ (0x200 ≤ off ∧ off < 0x600) →
      hostRead s off = 0)

/-- R52: an admitted read returns the word of the register map and changes no register; any read after it, with no
command between, returns what it would have returned before it. -/
def Obligations.HostReadReturnsTheMapAndChangesNothing : Prop :=
  ∀ (s : State) (off : Nat) (rest : List HostAccess),
    s.pending = .read off 4 :: rest → off < 0x1000 → off % 4 = 0 →
      ∃ t, step s = .next t ∧ t = { s with pending := rest, hostData := s.hostData ++ [hostRead s off] } ∧
        ∀ off', hostRead t off' = hostRead s off'

/-- R55: of the host's reads and writes, exactly the aligned 32-bit reads in the window and the 32-bit writes at offset
0x000 are admitted; every other is refused. Reset is served too: R281 admits it between commands, and its place among the
host's accesses is the model's own choice (log entry 12). That an access served leaves `pending` is the model's own as
well (log entry 1). -/
def Obligations.OnlyAdmittedAccessesHaveAStep : Prop :=
  ∀ (s : State) (a : HostAccess) (rest : List HostAccess), s.pending = a :: rest →
    let refused : Prop := match a with
      | .write off width _ => ¬ (off = 0x000 ∧ width = 4)
      | .read off width => ¬ (off < 0x1000 ∧ off % 4 = 0 ∧ width = 4)
      | .reset => False
    (refused → step s = .refused (.accessNotAdmitted a)) ∧ (¬ refused → ∃ t, step s = .next t ∧ t.pending = rest)

/-- R280: reset sets every piece of state to its reset value, whatever it held; the reset state holds those values for
every value of the parameters. The clauses on `params`, `pending` and `hostData` are the model's own choice (log entry
12): they are no state of the block, and a reset leaves them but for the access served. -/
def Obligations.ResetSetsEveryRegister : Prop :=
  (∀ (s : State) (rest : List HostAccess), s.pending = .reset :: rest →
    ∃ t, step s = .next t ∧ t.AtReset ∧ t.params = s.params ∧ t.pending = rest ∧ t.hostData = s.hostData) ∧
  (∀ p : Params, (State.resetWith p).AtReset) ∧ State.reset.AtReset

/-! ## Operand port -/

/-- R101: NOP writes STATUS only. -/
def Obligations.NopWritesStatusOnly : Prop :=
  decode 0x00000000 = .ok .nop ∧ (∀ s : State, exec .nop s = .next { s with status := 0x00 }) ∧
  ∀ w : Word, w.toNat % 256 = 0x00 → w ≠ 0 → decode w = .error .reservedFieldNonZero

/-- R102: OPB_CLR empties the operand string and leaves the bytes of OPBUF. -/
def Obligations.OpbClrEmptiesTheOperandString : Prop :=
  decode 0x00000001 = .ok .opbClr ∧
  ∀ s : State, ∃ t, exec .opbClr s = .next t ∧ t = { s with oplen := 0, status := 0x00 } ∧ t.operand = [] ∧
    ∀ i : Fin 128, hostRead t (0x200 + 4 * i.val) = 0

/-- R103: OPB_PUSH a appends one byte, or raises FULL with OPLEN = 128. -/
def Obligations.OpbPushAppendsOneByteOrRaisesFull : Prop :=
  ∀ a : Byte, decode (BitVec.ofNat 32 (a.toNat * 0x100 + 0x02)) = .ok (.opbPush a) ∧
    ∀ s : State,
      (s.oplen = 128 → exec (.opbPush a) s = .next { s with status := 0x04 }) ∧
      (s.oplen < 128 → ∃ t, exec (.opbPush a) s = .next t ∧
        t = { s with opbuf := s.opbuf.setIfInBounds s.oplen a, oplen := s.oplen + 1, status := 0x00 } ∧
        t.operand = s.operand ++ [a])

/-- R104: OPB_FROM_RBUF copies the result string into the operand string. -/
def Obligations.OpbFromRbufCopiesTheResultString : Prop :=
  decode 0x00000003 = .ok .opbFromRbuf ∧
  ∀ s : State, s.rlen ≤ 128 → ∃ t, exec .opbFromRbuf s = .next t ∧ t.operand = s.resultString ∧
    (∀ (i : Nat) (h : i < 128), s.rlen ≤ i → t.opbuf[i] = s.opbuf[i]) ∧
    t = { s with opbuf := t.opbuf, oplen := s.rlen, status := 0x00 }

/-- R105: DEST_SET index, a sets one byte of the destination address; an index of 8 or more is illegal. -/
def Obligations.DestSetWritesOneAddressByte : Prop :=
  ∀ (index : Imm) (a : Byte),
    (index.toNat < 8 →
      decode (BitVec.ofNat 32 (index.toNat * 0x10000 + a.toNat * 0x100 + 0x04)) = .ok (.destSet index a) ∧
      ∀ s : State, exec (.destSet index a) s =
        .next { s with dest := s.dest.setIfInBounds index.toNat a, status := 0x00 }) ∧
    (8 ≤ index.toNat →
      decode (BitVec.ofNat 32 (index.toNat * 0x10000 + a.toNat * 0x100 + 0x04)) = .error .operandOutOfRange)

/-- The pseudo-instructions OPB_LOAD, DEST_LOAD and IN_LOAD of R78 have the effect their names say. -/
def Obligations.PseudoInstructionsLoadTheirBytes : Prop :=
  (∀ (bs : List Byte) (s : State), bs.length ≤ 128 →
    ∃ t, runCommands (opbLoad bs) s = .next t ∧ t.operand = bs ∧
      t = { s with opbuf := t.opbuf, oplen := bs.length, status := 0x00 }) ∧
  (∀ (ds : List Byte) (s : State), ds.length = 8 →
    ∃ t, runCommands (destLoad ds) s = .next t ∧ t.dest.toList = ds ∧ t = { s with dest := t.dest, status := 0x00 }) ∧
  (∀ (bs : List Byte) (s : State), bs.length ≤ 128 → s.Inv → s.inCount + bs.length ≤ s.params.inCap →
    ∃ t, runCommands (inLoad bs) s = .next t ∧ t.buffered = s.buffered ++ bs ∧ t.status = 0x00)

/-- Eight lines in the syntax of R77 and R78 assemble to the words that R74 and R78's expansions give, and a ninth,
ENC_AT 12, to none. The ASCII codes of 'I' and of "hi" are general knowledge (R77, R78; PRESUMED), and what the assembler
rejects is the model's own choice (log entry 19). -/
def Obligations.AssemblerReadsTheSpecsLines : Prop :=
  assembleLine "PARSE" = some [0x00000032] ∧ assembleLine "ENC_AT NI" = some [0x00000221] ∧
  assembleLine "ENC_AT 12" = none ∧ assembleLine "PKT_COUNT 130" = some [0x00820047] ∧
  assembleLine "DEST_SET 7, 0x01" = some [0x00070104] ∧ assembleLine ".word 0x00000C21 ; a = 12" = some [0x00000C21] ∧
  assembleLine "OPB_LOAD 0x0A" = some [0x00000001, 0x00000A02] ∧
  assembleLine "OPB_LOAD \"hi\"" = some [0x00000001, 0x00006802, 0x00006902] ∧
  assembleLine "CSUM_OF 0x08, 'I'" = some [0x00000010, 0x00000811, 0x00004911, 0x00000012]

/-! ## Checksum unit -/

/-- R120 and the laws R121 draws from it. -/
def Obligations.ChecksumFunctionAndItsLaws : Prop :=
  (∀ s : List Byte, (checksum s).toNat = 0xFF - (s.map BitVec.toNat).sum % 256) ∧
  checksum [] = 0xFF ∧
  (∀ s : List Byte, checksum s = ~~~ BitVec.ofNat 8 ((s.map BitVec.toNat).sum % 256)) ∧
  (∀ s : List Byte, ((s.map BitVec.toNat).sum + (checksum s).toNat) % 256 = 0xFF) ∧
  (∀ s t : List Byte, s.Perm t → checksum s = checksum t) ∧
  (∀ s s' t : List Byte, (s.map BitVec.toNat).sum % 256 = (s'.map BitVec.toNat).sum % 256 →
    checksum (s ++ t) = checksum (s' ++ t))

/-- R123, R124, R126: CSUM_CLR, CSUM_ADD and CSUM_BUF. -/
def Obligations.ChecksumUnitCommands : Prop :=
  (decode 0x00000010 = .ok .csumClr ∧ ∀ s : State, exec .csumClr s = .next { s with acc := 0x00, status := 0x00 }) ∧
  (∀ a : Byte, decode (BitVec.ofNat 32 (a.toNat * 0x100 + 0x11)) = .ok (.csumAdd a) ∧
    ∀ s : State, exec (.csumAdd a) s =
      .next { s with acc := BitVec.ofNat 8 ((s.acc.toNat + a.toNat) % 256), status := 0x00 }) ∧
  (decode 0x00000013 = .ok .csumBuf ∧ ∀ s : State, ∃ t, exec .csumBuf s = .next t ∧
    t.result.toNat = 0xFF - (s.operand.map BitVec.toNat).sum % 256 ∧
    t = { s with result := t.result, status := 0x00 })

/-- R125: CSUM_READ reads 0xFF − ACC; so CSUM_CLR, a CSUM_ADD for each byte of bs, then CSUM_READ leave checksum(bs) in
RESULT, and 0xFF when there is no byte. -/
def Obligations.CsumReadLeavesTheChecksumOfTheBytesAdded : Prop :=
  decode 0x00000012 = .ok .csumRead ∧
  (∀ s : State, ∃ t, exec .csumRead s = .next t ∧ t.result.toNat = 0xFF - s.acc.toNat ∧
    t = { s with result := t.result, status := 0x00 }) ∧
  ∀ (bs : List Byte) (s : State), ∃ t, runCommands (csumOf bs) s = .next t ∧
    t.result.toNat = (checksum bs).toNat ∧ (bs = [] → t.result = 0xFF) ∧
    t.acc.toNat = (bs.map BitVec.toNat).sum % 256 ∧ t = { s with acc := t.acc, result := t.result, status := 0x00 }

/-! ## Field validator and encoder -/

/-- R140 to R144, R150: FV_CHECK reports, for each of the twelve fields, whether the operand string is a legal value. The
rules of SN, SO, ST, SP and WH are parameters (R145). -/
def Obligations.FvCheckReportsValidity : Prop :=
  (∀ f : Byte, (f.toNat < 12 → decode (BitVec.ofNat 32 (f.toNat * 0x100 + 0x20)) = .ok (.fvCheck f)) ∧
    (12 ≤ f.toNat → decode (BitVec.ofNat 32 (f.toNat * 0x100 + 0x20)) = .error .operandOutOfRange)) ∧
  ∀ s : State,
    let v := s.operand
    let leMagnitude := (Finset.range v.length).sum fun j => (byteAt v j).toNat * 256 ^ j
    let report : Bool → Host.Outcome State Fault Refusal :=
      fun b => .next { s with result := if b then 1 else 0, status := 0x00 }
    exec (.fvCheck 0) s = report (decide (v.length ≤ 2)) ∧
    exec (.fvCheck 1) s = report (decide (v.length ≤ 4 ∧ 0x0B ≤ leMagnitude ∧ leMagnitude ≤ 0x1A)) ∧
    exec (.fvCheck 2) s = report (decide (v.length ≤ 20 ∧ ∀ b ∈ v, b.toNat ≤ 0x7F)) ∧
    exec (.fvCheck 3) s = report (decide (v.length ≤ 4 ∧ leMagnitude ≤ 0x08)) ∧
    exec (.fvCheck 4) s = report (decide (v.length ≤ 120) && Config.fieldRuleSN v) ∧
    exec (.fvCheck 5) s = report (decide (v.length ≤ 120) && Config.fieldRuleSO v) ∧
    exec (.fvCheck 6) s = report (decide (v.length ≤ 120) && Config.fieldRuleST v) ∧
    exec (.fvCheck 7) s = report (decide (v.length ≤ 120) && Config.fieldRuleSP v) ∧
    exec (.fvCheck 8) s = report (decide (v.length ≤ 120) && Config.fieldRuleWH v) ∧
    exec (.fvCheck 9) s = report (decide (v = [])) ∧ exec (.fvCheck 10) s = report (decide (v = [])) ∧
    exec (.fvCheck 11) s = report (decide (v = []))

/-- R147, R151, with the field table of R84: ENC_AT writes the Local AT Command frame of a valid value and raises
VALIDATION_ERROR, with no other effect, on any other. The wire bytes written out here for the ten names other than ID and
NI are general knowledge, not the source's (R84; log entry 16, PRESUMED). -/
def Obligations.EncAtBuildsTheFrameOrRejects : Prop :=
  (∀ f : Byte, (f.toNat < 12 → decode (BitVec.ofNat 32 (f.toNat * 0x100 + 0x21)) = .ok (.encAt f)) ∧
    (12 ≤ f.toNat → decode (BitVec.ofNat 32 (f.toNat * 0x100 + 0x21)) = .error .operandOutOfRange)) ∧
  ∀ row ∈ ([(0, .ID, 0x49, 0x44), (1, .CH, 0x43, 0x48), (2, .NI, 0x4E, 0x49), (3, .SM, 0x53, 0x4D),
      (4, .SN, 0x53, 0x4E), (5, .SO, 0x53, 0x4F), (6, .ST, 0x53, 0x54), (7, .SP, 0x53, 0x50), (8, .WH, 0x57, 0x48),
      (9, .SH, 0x53, 0x48), (10, .SL, 0x53, 0x4C), (11, .WR, 0x57, 0x52)] : List (Byte × AtField × Byte × Byte)),
    let (f, fld, w0, w1) := row
    ∀ s : State, s.oplen ≤ 128 →
      (valid fld s.operand = false → exec (.encAt f) s = .next { s with status := 0x01 }) ∧
      (valid fld s.operand = true → ∃ t, exec (.encAt f) s = .next t ∧
        WritesResultString s t ([0x7E, 0x00, BitVec.ofNat 8 (4 + s.oplen), 0x08, 0x01, w0, w1] ++ s.operand ++
          [checksum ([0x08, 0x01, w0, w1] ++ s.operand)]) ∧
        t.rlen = 8 + s.oplen)

/-- R148, R152: ENC_TX writes the Transmit Request of DEST and the operand string, or raises PAYLOAD_TOO_LARGE. -/
def Obligations.EncTxBuildsTheFrameOrRejects : Prop :=
  decode 0x00000022 = .ok .encTx ∧
  ∀ s : State,
    (65 < s.oplen → exec .encTx s = .next { s with status := 0x02 }) ∧
    (s.oplen ≤ 65 → ∃ t, exec .encTx s = .next t ∧
      WritesResultString s t ([0x7E, 0x00, BitVec.ofNat 8 (14 + s.oplen), 0x10, 0x01] ++ s.dest.toList ++
        [0xFF, 0xFE, 0x00, 0xC0] ++ s.operand ++
        [checksum ([0x10, 0x01] ++ s.dest.toList ++ [0xFF, 0xFE, 0x00, 0xC0] ++ s.operand)]) ∧
      t.rlen = 18 + s.oplen)

/-- R153: every frame ENC_AT and ENC_TX write is checksum-valid, has LENGTH its total length less 4 and at most 128
bytes, and an AT frame holds the field's wire bytes at [5..7) and the value at [7..7+|v|). -/
def Obligations.EncodedFramesAreWellFormedAndRoundTrip : Prop :=
  (∀ (s t : State) (f : Byte) (fld : AtField), s.Inv → fieldOfId f = some fld → exec (.encAt f) s = .next t →
    t.status = 0x00 →
      WireFrame t.resultString ∧ slice t.resultString 5 7 = [(wire fld).1, (wire fld).2] ∧
      slice t.resultString 7 (7 + s.operand.length) = s.operand) ∧
  (∀ s t : State, s.Inv → exec .encTx s = .next t → t.status = 0x00 →
    WireFrame t.resultString ∧ slice t.resultString 5 13 = s.dest.toList ∧
    slice t.resultString 17 (17 + s.operand.length) = s.operand)

/-! ## Stream parser: commands -/

/-- R185: IN_PUSH a appends one byte to IBUF, or raises FULL. -/
def Obligations.InPushAppendsOneByteOrRaisesFull : Prop :=
  ∀ a : Byte, decode (BitVec.ofNat 32 (a.toNat * 0x100 + 0x30)) = .ok (.inPush a) ∧
    ∀ s : State, s.Inv →
      (s.inCount = s.params.inCap → exec (.inPush a) s = .next { s with status := 0x04 }) ∧
      (s.inCount < s.params.inCap → ∃ t, exec (.inPush a) s = .next t ∧
        t = { s with ibuf := s.ibuf.set s.inCount a, inCount := s.inCount + 1, status := 0x00 } ∧
        t.buffered = s.buffered ++ [a])

/-- R186: IN_APPEND appends the operand string to IBUF whole, or raises FULL and stores no byte. -/
def Obligations.InAppendStoresAllOrNothing : Prop :=
  decode 0x00000031 = .ok .inAppend ∧
  ∀ s : State, s.Inv →
    (s.params.inCap < s.inCount + s.oplen → exec .inAppend s = .next { s with status := 0x04 }) ∧
    (s.inCount + s.oplen ≤ s.params.inCap → ∃ t, exec .inAppend s = .next t ∧
      t.buffered = s.buffered ++ s.operand ∧
      (∀ j, s.inCount + s.oplen ≤ j → t.ibuf[j]? = s.ibuf[j]?) ∧
      t = { s with ibuf := t.ibuf, inCount := s.inCount + s.oplen, status := 0x00 })

/-- R181, R187: PARSE queues the frames of the scan, commits the compaction, and reports the count; FULL when the scan
stopped at a frame OFIFO had no room for. -/
def Obligations.ParseQueuesFramesAndCompacts : Prop :=
  decode 0x00000032 = .ok .parse ∧
  ∀ s : State, s.Inv →
    let c := s.runScan (.all (s.params.outDepth - s.ofifo.length))
    ∃ t, exec .parse s = .next t ∧ t.buffered = s.buffered.drop c.regs.cb ∧
      (c.frames.length < 2 ^ 32 → t.result.toNat = c.frames.length) ∧ t.scan.fsm = .seekStart ∧
      t = { s with
        ofifo := s.ofifo ++ c.frames
        ibuf := t.ibuf
        inCount := s.inCount - c.regs.cb
        lastConsumed := c.regs.cb
        scan := t.scan
        result := t.result
        status := if c.stop = .outFull then 0x04 else 0x00 }

/-- R188: OUT_POP moves the oldest queued frame to RBUF, or raises EMPTY. -/
def Obligations.OutPopMovesTheOldestFrame : Prop :=
  decode 0x00000034 = .ok .outPop ∧
  ∀ s : State, s.Inv →
    (s.ofifo = [] → exec .outPop s = .next { s with status := 0x05 }) ∧
    (∀ fr rest, s.ofifo = fr :: rest → ∃ t, exec .outPop s = .next t ∧
      WritesResultString { s with ofifo := rest } t fr)

/-- R210, R211: EXTRACT writes the first frame of a FIRST scan to RBUF and compacts; on NOT_FOUND it still compacts,
keeps a trailing partial candidate from its START, and leaves RBUF, RLEN and RESULT. -/
def Obligations.ExtractTakesTheFirstFrameAndCompacts : Prop :=
  decode 0x00000033 = .ok .extract ∧
  ∀ s : State, s.Inv →
    let c := s.runScan .first
    ∃ t, exec .extract s = .next t ∧ t.buffered = s.buffered.drop c.regs.cb ∧ t.scan.fsm = .seekStart ∧
      let base := { s with
        ibuf := t.ibuf
        inCount := s.inCount - c.regs.cb
        lastConsumed := c.regs.cb
        scan := t.scan }
      (c.stop = .found → ∃ f, c.frames = [f] ∧ WritesResultString base t f) ∧
      (c.stop ≠ .found → t = { base with status := 0x03 } ∧
        (t.buffered = [] ∨ PartialCandidate s.params.zeroLenAccept t.buffered))

/-! ## Stream parser: the scan -/

/-- R180: what holds at the head of every iteration of the scan's loop (`pre` is the bytes read so far), and how a scan
ends. -/
def Obligations.ScanInvariantsAndEndings : Prop :=
  (∀ (mode : ScanMode) (z : Bool) (r : ScanRegs) (span pre post : List Byte), span = pre ++ post →
    let c := Scan.loop mode z span { regs := r.start, frames := [], stop := .endOfSpan } pre
    c.stop = .endOfSpan →
      c.regs.i = pre.length ∧
      (c.regs.fsm = .seekStart → c.regs.cb = c.regs.i) ∧
      (c.regs.fsm ≠ .seekStart → c.regs.cb = c.regs.cs ∧ c.regs.cs < c.regs.i ∧ byteAt span c.regs.cs = 0x7E ∧
        ∀ j, c.regs.cs < j → j < c.regs.i → byteAt span j ≠ 0x7E)) ∧
  (∀ (mode : ScanMode) (z : Bool) (r : ScanRegs) (span : List Byte),
    let c := scanSpan mode z r span
    c.regs.cb ≤ span.length ∧
    (c.stop = .endOfSpan → c.regs.fsm = .seekStart → c.regs.cb = span.length) ∧
    (c.stop = .endOfSpan → c.regs.fsm ≠ .seekStart →
      PartialCandidate z (span.drop c.regs.cb) ∧ span.length - c.regs.cb ≤ 127) ∧
    (c.stop = .found → ∃ f, c.frames = [f] ∧ f.length ≤ c.regs.cb ∧ slice span (c.regs.cb - f.length) c.regs.cb = f) ∧
    (c.stop = .outFull → ∃ f, Emittable z f ∧ slice span c.regs.cb (c.regs.cb + f.length) = f) ∧
    (∀ f ∈ c.frames, Emittable z f) ∧
    ∃ (gs : List (List Byte)) (g : List Byte), gs.length = c.frames.length ∧
      span.take c.regs.cb = (List.zipWith (· ++ ·) gs c.frames).flatten ++ g)

/-- R173, R174: bytes before a START are garbage, and a 0x7E inside a candidate drops the candidate and begins another:
neither changes what the scan finds after them. -/
def Obligations.ScanSkipsGarbageAndResyncs : Prop :=
  ∀ (z : Bool) (rest : List Byte),
    (∀ g : List Byte, 0x7E ∉ g → framesIn z (g ++ rest) = framesIn z rest ∧ leftIn z (g ++ rest) = leftIn z rest) ∧
    (∀ p : List Byte, PartialCandidate z p → (p.length ≤ 2 ∨ p.length < be16 p 1 + 3) →
      framesIn z (p ++ 0x7E :: rest) = framesIn z (0x7E :: rest) ∧
      leftIn z (p ++ 0x7E :: rest) = leftIn z (0x7E :: rest))

/-- R176, R178: a candidate with a rejected LENGTH is dropped through its LENGTH, and one whose checksum byte does not
match is dropped with that byte, whatever the byte is. -/
def Obligations.ScanDropsMalformedAndMismatchedCandidates : Prop :=
  ∀ (z : Bool) (rest : List Byte),
    (∀ hi lo : Byte, hi ≠ 0x7E → lo ≠ 0x7E →
      (124 < hi.toNat * 256 + lo.toNat ∨ (hi.toNat * 256 + lo.toNat = 0 ∧ z = false)) →
      framesIn z ([0x7E, hi, lo] ++ rest) = framesIn z rest ∧ leftIn z ([0x7E, hi, lo] ++ rest) = leftIn z rest) ∧
    (∀ (p : List Byte) (b : Byte), PartialCandidate z p → 3 ≤ p.length → p.length = be16 p 1 + 3 →
      b ≠ checksum (p.drop 3) →
      framesIn z (p ++ b :: rest) = framesIn z rest ∧ leftIn z (p ++ b :: rest) = leftIn z rest)

/-- R177, R182: a valid frame is emitted whole and the scan goes on after it; a partial candidate at the end is kept. -/
def Obligations.ScanEmitsValidFramesAndKeepsThePartial : Prop :=
  ∀ z : Bool,
    (∀ f rest : List Byte, Emittable z f →
      framesIn z (f ++ rest) = f :: framesIn z rest ∧ leftIn z (f ++ rest) = leftIn z rest) ∧
    (∀ p : List Byte, PartialCandidate z p → framesIn z p = [] ∧ leftIn z p = p) ∧
    framesIn z [] = [] ∧ leftIn z [] = []

/-- The source's resync ordering property (95_test_vectors.md), for any number of frames: valid frames among garbage are
found, exactly they, in order, and the whole span is consumed. -/
def Obligations.FramesAmongGarbageAreFoundInOrder : Prop :=
  ∀ (z : Bool) (segments : List (List Byte × List Byte)) (tail : List Byte),
    (∀ gf ∈ segments, 0x7E ∉ gf.1 ∧ Emittable z gf.2) → 0x7E ∉ tail →
      framesIn z ((segments.map fun gf => gf.1 ++ gf.2).flatten ++ tail) = segments.map Prod.snd ∧
      leftIn z ((segments.map fun gf => gf.1 ++ gf.2).flatten ++ tail) = []

/-- R183, R184: a frame that fails its checksum, or holds 0x7E among its LENGTH, TYPE and BODY bytes, is never emitted;
a frame the encoder builds from a value holding 0x7E is such a frame; a checksum byte of 0x7E does not prevent emission. -/
def Obligations.ScanNeverEmitsCorruptFramesOrFramesHoldingStart : Prop :=
  (∀ (z : Bool) (span f : List Byte), f ∈ framesIn z span →
    ChecksumValid f ∧ ∀ j, 1 ≤ j → j + 1 < f.length → byteAt f j ≠ 0x7E) ∧
  (∀ (z : Bool) (span v : List Byte) (fld : AtField), valid fld v = true → 0x7E ∈ v →
    atFrame fld v ∉ framesIn z span) ∧
  (∀ (z : Bool) (f : List Byte), Emittable z f → byteAt f (f.length - 1) = 0x7E → framesIn z f = [f])

/-- R295: the block receives the frames its own encoder builds when value, payload and address hold no 0x7E. -/
def Obligations.BlockReceivesItsOwnFrames : Prop :=
  (∀ (z : Bool) (fld : AtField) (v : List Byte), valid fld v = true → 0x7E ∉ v →
    framesIn z (atFrame fld v) = [atFrame fld v] ∧ leftIn z (atFrame fld v) = []) ∧
  (∀ (z : Bool) (d p : List Byte), d.length = 8 → p.length ≤ 65 → 0x7E ∉ d → 0x7E ∉ p →
    framesIn z (txFrame d p) = [txFrame d p] ∧ leftIn z (txFrame d p) = [])

/-- R179: with room for every frame PARSE queues them all; otherwise it fills OFIFO and stops, the next frame stays in
IBUF from its START, and a later scan of what is left finds it and every frame after it: no frame is lost. -/
def Obligations.ParseLosesNoFrameWhenFull : Prop :=
  ∀ s : State, s.Inv →
    let z := s.params.zeroLenAccept
    let found := framesIn z s.buffered
    let room := s.params.outDepth - s.ofifo.length
    ∃ t, exec .parse s = .next t ∧
      (found.length ≤ room → t.status = 0x00 ∧ t.ofifo = s.ofifo ++ found ∧ t.buffered = leftIn z s.buffered) ∧
      (room < found.length → t.status = 0x04 ∧ t.ofifo = s.ofifo ++ found.take room ∧
        framesIn z t.buffered = found.drop room ∧ leftIn z t.buffered = leftIn z s.buffered ∧
        ∃ f, (found.drop room).head? = some f ∧ t.buffered.take f.length = f)

/-- R212: repeating EXTRACT until NOT_FOUND writes to RBUF, in turn, the frames one PARSE with room for them queues, and
ends with the same buffered input. -/
def Obligations.RepeatedExtractFindsTheFramesOfParse : Prop :=
  ∀ s t : State, s.Inv → s.ofifo = [] → exec .parse s = .next t → t.status = 0x00 →
    (∀ (k : Nat) (h : k < t.ofifo.length), ∃ u, runCommands (List.replicate (k + 1) .extract) s = .next u ∧
      u.status = 0x00 ∧ u.resultString = t.ofifo[k]) ∧
    ∃ u, runCommands (List.replicate (t.ofifo.length + 1) .extract) s = .next u ∧ u.status = 0x03 ∧
      u.buffered = t.buffered ∧ u.inCount = t.inCount

/-- R182: while IN_CAP and OUT_DEPTH never force a stop, delivering a stream by IN_PUSH and IN_APPEND with PARSEs anywhere
among them queues the same frames, in the same order, as delivering it at once and parsing once, and leaves the same
bytes. -/
def Obligations.SplittingTheStreamChangesNoFrame : Prop :=
  ∀ (s t : State) (cs : List Instr), s.Inv →
    (∀ i ∈ cs, (∃ a, i = .inPush a) ∨ i = .inAppend ∨ i = .parse) →
    s.inCount + (cs.flatMap s.deliveredBy).length ≤ s.params.inCap →
    runCommands (cs.filter (fun i => decide (i ≠ .parse)) ++ [.parse]) s = .next t → t.status = 0x00 →
      ∃ u, runCommands (cs ++ [.parse]) s = .next u ∧ u.status = 0x00 ∧ u.ofifo = t.ofifo ∧ u.buffered = t.buffered

/-- R292: a PARSE or EXTRACT that scanned to the end of IBUF leaves at most a 127-byte partial candidate, so IBUF takes at
least one more byte. The last two clauses are the model's reading and go against R292's second case as it is written: IBUF
stays full only after a PARSE that stopped with FULL, and an EXTRACT always leaves room, since R210 and R181 remove at
least the frame it returns (log entry 21, DEDUCED). -/
def Obligations.BufferRegainsRoomAfterAFullScan : Prop :=
  ∀ s t : State, s.Inv →
    (exec .parse s = .next t → t.status = 0x00 → t.inCount ≤ 127 ∧ t.inCount < t.params.inCap) ∧
    (exec .extract s = .next t → t.status = 0x03 → t.inCount ≤ 127) ∧
    (exec .parse s = .next t → t.inCount = t.params.inCap → t.status = 0x04) ∧
    (exec .extract s = .next t → t.inCount < t.params.inCap)

/-! ## Frame inspector -/

/-- R222 to R224: FI_SIZE, FI_TYPE and FI_ATVSZ read the LENGTH field and TYPE, or raise RANGE. -/
def Obligations.InspectorReadsSizesAndType : Prop :=
  decode 0x00000040 = .ok .fiSize ∧ decode 0x00000041 = .ok .fiType ∧ decode 0x00000042 = .ok .fiAtvsz ∧
  ∀ s : State,
    let length := s.opbuf[1].toNat * 256 + s.opbuf[2].toNat
    (s.oplen < 3 → exec .fiSize s = .next { s with status := 0x06 }) ∧
    (3 ≤ s.oplen → ∃ t, exec .fiSize s = .next t ∧ t.result.toNat = length + 4 ∧
      t = { s with result := t.result, status := 0x00 }) ∧
    (s.oplen < 4 → exec .fiType s = .next { s with status := 0x06 }) ∧
    (4 ≤ s.oplen → ∃ t, exec .fiType s = .next t ∧ t.result.toNat = s.opbuf[3].toNat ∧
      t = { s with result := t.result, status := 0x00 }) ∧
    (s.oplen < 3 ∨ length < 5 → exec .fiAtvsz s = .next { s with status := 0x06 }) ∧
    (3 ≤ s.oplen → 5 ≤ length → ∃ t, exec .fiAtvsz s = .next t ∧ t.result.toNat = length - 5 ∧
      t = { s with result := t.result, status := 0x00 })

/-- R221, R226, R227, with the field table of R84: FI_ATCMD reports the field whose wire bytes stand at [5..7), 0xFF when
there is none, and FI_ATSTAT the byte at 7 as it stands; both raise RANGE on a frame too short. The wire bytes written out
here for the ten names other than ID and NI are general knowledge, not the source's (R84; log entry 16, PRESUMED). -/
def Obligations.InspectorReadsFieldAndStatus : Prop :=
  decode 0x00000044 = .ok .fiAtcmd ∧ decode 0x00000045 = .ok .fiAtstat ∧
  ∀ s : State,
    let table : List (Byte × Byte × Nat) := [(0x49, 0x44, 0), (0x43, 0x48, 1), (0x4E, 0x49, 2), (0x53, 0x4D, 3),
      (0x53, 0x4E, 4), (0x53, 0x4F, 5), (0x53, 0x54, 6), (0x53, 0x50, 7), (0x57, 0x48, 8), (0x53, 0x48, 9),
      (0x53, 0x4C, 10), (0x57, 0x52, 11)]
    (s.oplen < 7 → exec .fiAtcmd s = .next { s with status := 0x06 }) ∧
    (7 ≤ s.oplen → ∃ t, exec .fiAtcmd s = .next t ∧
      (∀ row ∈ table, s.opbuf[5] = row.1 → s.opbuf[6] = row.2.1 → t.result.toNat = row.2.2) ∧
      ((∀ row ∈ table, ¬ (s.opbuf[5] = row.1 ∧ s.opbuf[6] = row.2.1)) → t.result.toNat = 0xFF) ∧
      t = { s with result := t.result, status := 0x00 }) ∧
    (s.oplen < 8 → exec .fiAtstat s = .next { s with status := 0x06 }) ∧
    (8 ≤ s.oplen → ∃ t, exec .fiAtstat s = .next t ∧ t.result.toNat = s.opbuf[7].toNat ∧
      t = { s with result := t.result, status := 0x00 })

/-- R225: FI_ATVAL copies the value f[8..8+vs), vs = LENGTH − 5, to RBUF, or raises RANGE. -/
def Obligations.FiAtvalCopiesTheValueOrRaisesRange : Prop :=
  decode 0x00000043 = .ok .fiAtval ∧
  ∀ s : State, s.oplen ≤ 128 →
    let length := s.opbuf[1].toNat * 256 + s.opbuf[2].toNat
    (s.oplen < 3 ∨ length < 5 ∨ s.oplen < 8 + (length - 5) → exec .fiAtval s = .next { s with status := 0x06 }) ∧
    (3 ≤ s.oplen → 5 ≤ length → 8 + (length - 5) ≤ s.oplen → ∃ t, exec .fiAtval s = .next t ∧
      WritesResultString s t (slice s.operand 8 (8 + (length - 5))) ∧ t.rlen = length - 5)

/-- R228: FI_RXPAY copies the payload f[15..t−1), t = LENGTH + 4, to RBUF, or raises RANGE. -/
def Obligations.FiRxpayCopiesThePayloadOrRaisesRange : Prop :=
  decode 0x00000046 = .ok .fiRxpay ∧
  ∀ s : State, s.oplen ≤ 128 →
    let total := s.opbuf[1].toNat * 256 + s.opbuf[2].toNat + 4
    (s.oplen < 3 ∨ total < 16 ∨ s.oplen < total → exec .fiRxpay s = .next { s with status := 0x06 }) ∧
    (3 ≤ s.oplen → 16 ≤ total → total ≤ s.oplen → ∃ t, exec .fiRxpay s = .next t ∧
      WritesResultString s t (slice s.operand 15 (total - 1)) ∧ t.rlen = total - 16)

/-- R229: PKT_COUNT n gives the least number of 65-byte packets that hold n bytes. -/
def Obligations.PktCountIsTheLeastSufficientCount : Prop :=
  ∀ n : Imm, decode (BitVec.ofNat 32 (n.toNat * 0x10000 + 0x47)) = .ok (.pktCount n) ∧
    ∀ s : State, ∃ t, exec (.pktCount n) s = .next t ∧ IsLeast { k : Nat | n.toNat ≤ k * 65 } t.result.toNat ∧
      t.result.toNat = (n.toNat + 64) / 65 ∧ t = { s with result := t.result, status := 0x00 }

/-- A Local AT Command Response laid out as R85 says is read back field by field: size, type, AT field, status and
value. -/
def Obligations.InspectorReadsBackAResponse : Prop :=
  ∀ (s : State) (id st : Byte) (fld : AtField) (v : List Byte), v.length ≤ 119 →
    s.operand = atResponseFrame id (wire fld).1 (wire fld).2 st v → s.oplen = 9 + v.length →
      (∃ t, exec .fiSize s = .next t ∧ t.status = 0x00 ∧ t.result.toNat = 9 + v.length) ∧
      (∃ t, exec .fiType s = .next t ∧ t.status = 0x00 ∧ t.result.toNat = 0x88) ∧
      (∃ t, exec .fiAtcmd s = .next t ∧ t.status = 0x00 ∧ t.result.toNat = (fieldId fld).toNat) ∧
      (∃ t, exec .fiAtstat s = .next t ∧ t.status = 0x00 ∧ t.result.toNat = st.toNat) ∧
      (∃ t, exec .fiAtvsz s = .next t ∧ t.status = 0x00 ∧ t.result.toNat = v.length) ∧
      (∃ t, exec .fiAtval s = .next t ∧ t.status = 0x00 ∧ t.resultString = v)

/-- A Receive Packet laid out as R86 says is read back: size, type and payload. -/
def Obligations.InspectorReadsBackAReceivedPacket : Prop :=
  ∀ (s : State) (addr : Vector Byte 8) (r0 r1 opts : Byte) (payload : List Byte), payload.length ≤ 112 →
    s.operand = receivePacketFrame addr r0 r1 opts payload → s.oplen = 16 + payload.length →
      (∃ t, exec .fiSize s = .next t ∧ t.status = 0x00 ∧ t.result.toNat = 16 + payload.length) ∧
      (∃ t, exec .fiType s = .next t ∧ t.status = 0x00 ∧ t.result.toNat = 0x90) ∧
      (∃ t, exec .fiRxpay s = .next t ∧ t.status = 0x00 ∧ t.resultString = payload)

/-! ## The whole machine -/

/-- R252, R253: a command that ends with an error status writes STATUS and nothing else; PARSE with FULL and EXTRACT with
NOT_FOUND also commit their scan. -/
def Obligations.ErrorsWriteStatusOnly : Prop :=
  ∀ (i : Instr) (s t : State), exec i s = .next t → t.status ≠ 0x00 →
    (i ≠ .parse → i ≠ .extract → t = { s with status := t.status }) ∧
    (i = .parse → t.status = 0x04 ∧
      let c := s.runScan (.all (s.params.outDepth - s.ofifo.length))
      t = { s with
        ofifo := s.ofifo ++ c.frames
        ibuf := t.ibuf
        inCount := s.inCount - c.regs.cb
        lastConsumed := c.regs.cb
        scan := t.scan
        result := countWord c.frames.length
        status := 0x04 }) ∧
    (i = .extract → t.status = 0x03 ∧
      let c := s.runScan .first
      t = { s with
        ibuf := t.ibuf
        inCount := s.inCount - c.regs.cb
        lastConsumed := c.regs.cb
        scan := t.scan
        status := 0x03 })

/-- R251: which command ends with which error status, and exactly when. -/
def Obligations.StatusCauses : Prop :=
  (∀ (i : Instr) (s : State), i.wellFormed = true → ∃ t, exec i s = .next t ∧
    (t.status = 0x01 ↔ ∃ f fld, i = .encAt f ∧ fieldOfId f = some fld ∧ valid fld s.operand = false) ∧
    (t.status = 0x02 ↔ i = .encTx ∧ 65 < s.oplen) ∧
    (t.status = 0x03 ↔ i = .extract ∧ (s.runScan .first).stop ≠ .found) ∧
    (t.status = 0x04 ↔ (∃ a, i = .opbPush a ∧ s.oplen = 128) ∨ (∃ a, i = .inPush a ∧ s.inCount = s.params.inCap) ∨
      (i = .inAppend ∧ s.params.inCap < s.inCount + s.oplen) ∨
      (i = .parse ∧ (s.runScan (.all (s.params.outDepth - s.ofifo.length))).stop = .outFull)) ∧
    (t.status = 0x05 ↔ i = .outPop ∧ s.ofifo = []) ∧
    (t.status = 0x06 ↔ (i = .fiSize ∧ s.oplen < 3) ∨ (i = .fiType ∧ s.oplen < 4) ∨
      (i = .fiAtvsz ∧ (s.oplen < 3 ∨ be16 s.operand 1 < 5)) ∨
      (i = .fiAtval ∧ (s.oplen < 3 ∨ be16 s.operand 1 < 5 ∨ s.oplen < 8 + (be16 s.operand 1 - 5))) ∨
      (i = .fiAtcmd ∧ s.oplen < 7) ∨ (i = .fiAtstat ∧ s.oplen < 8) ∨
      (i = .fiRxpay ∧ (s.oplen < 3 ∨ be16 s.operand 1 + 4 < 16 ∨ s.oplen < be16 s.operand 1 + 4))) ∧
    t.status ≠ 0x07) ∧
  (∀ (s : State) (w : Word) (rest : List HostAccess), s.pending = .write 0x000 4 w :: rest →
    ∃ t, step s = .next t ∧ (t.status = 0x07 ↔ IllegalWord w))

/-- R26, R28, R31, R33, R34, R93, R291: each register is written by the commands the spec names and by no other; no
command changes the parameters or the host's side. -/
def Obligations.RegistersHaveOnlyTheirWriters : Prop :=
  ∀ (i : Instr) (s t : State), exec i s = .next t →
    t.params = s.params ∧ t.pending = s.pending ∧ t.hostData = s.hostData ∧
    ((t.opbuf = s.opbuf ∧ t.oplen = s.oplen) ∨ i = .opbClr ∨ (∃ a, i = .opbPush a) ∨ i = .opbFromRbuf) ∧
    (t.dest = s.dest ∨ ∃ x a, i = .destSet x a) ∧
    (t.acc = s.acc ∨ i = .csumClr ∨ ∃ a, i = .csumAdd a) ∧
    ((t.rbuf = s.rbuf ∧ t.rlen = s.rlen) ∨ (∃ f, i = .encAt f) ∨ i = .encTx ∨ i = .extract ∨ i = .outPop ∨
      i = .fiAtval ∨ i = .fiRxpay) ∧
    ((t.ibuf = s.ibuf ∧ t.inCount = s.inCount) ∨ (∃ a, i = .inPush a) ∨ i = .inAppend ∨ i = .parse ∨ i = .extract) ∧
    ((t.lastConsumed = s.lastConsumed ∧ t.scan = s.scan) ∨ i = .parse ∨ i = .extract) ∧
    (t.ofifo = s.ofifo ∨ i = .parse ∨ i = .outPop) ∧
    (t.result = s.result ∨ i = .csumRead ∨ i = .csumBuf ∨ (∃ f, i = .fvCheck f) ∨ (∃ f, i = .encAt f) ∨ i = .encTx ∨
      i = .parse ∨ i = .extract ∨ i = .outPop ∨ i = .fiSize ∨ i = .fiType ∨ i = .fiAtvsz ∨ i = .fiAtcmd ∨
      i = .fiAtstat ∨ i = .fiAtval ∨ i = .fiRxpay ∨ ∃ n, i = .pktCount n)

/-- R22: no command reads STATUS. -/
def Obligations.NoCommandReadsStatus : Prop :=
  ∀ (i : Instr) (s : State) (x : BitVec 8), exec i { s with status := x } = exec i s

/-- R24: every command completes and leaves one of the eight status codes in STATUS. -/
def Obligations.EveryCommandCompletesWithALegalStatus : Prop :=
  ∀ (i : Instr) (s : State), ∃ t, exec i s = .next t ∧
    t.status ∈ ([0x00, 0x01, 0x02, 0x03, 0x04, 0x05, 0x06, 0x07] : List (BitVec 8))

/-- R36, R53: the bytes beyond OPLEN, RLEN and IN_COUNT and the transient registers are never observable. Two states that
agree on everything else give every host read the same word and take steps that agree on everything else again. -/
def Obligations.UnspecifiedStateIsNeverObservable : Prop :=
  ∀ s t : State, s.Inv → t.Inv → s.SameVisible t →
    (∀ off, hostRead s off = hostRead t off) ∧
    (∀ s', step s = .next s' → ∃ t', step t = .next t' ∧ s'.SameVisible t') ∧
    (∀ r, step s = .refused r → step t = .refused r)

/-- R7, R24, R26, R30, R32 to R34, R36: every step keeps every register in its range, every queued frame a valid frame
and FSM at rest. -/
def Obligations.EveryStepKeepsTheInvariant : Prop :=
  ∀ s t : State, s.Inv → step s = .next t → t.Inv

/-- The reset state meets the invariant, for every legal value of the parameters. -/
def Obligations.ResetStatesMeetTheInvariant : Prop :=
  (∀ p : Params, p.Legal → (State.resetWith p).Inv) ∧ State.reset.Inv
end

