-- ==== Sys2Proof/Laws/Bytes.lean ====
section
/-! SUPPORT. Storing into a buffer and reading it back: one law for what was stored, one for what was not. -/

namespace Sys2Proof.Machine

/-- A string stored at `n` that fits extends the first n bytes. -/
theorem take_storeList (buf s : List Byte) (n : Nat) (h : n + s.length ≤ buf.length) :
    (storeList buf n s).take (n + s.length) = buf.take n ++ s := by
  have hn : (buf.take n).length = n := by simp; omega
  simp only [storeList, List.take_take]
  rw [Nat.min_eq_left h, List.take_append_of_le_length (by simp [hn]),
    List.take_of_length_le (by simp)]

/-- A string stored at the front that fits is read back by its length. -/
theorem take_storeList_zero (buf s : List Byte) (h : s.length ≤ buf.length) :
    (storeList buf 0 s).take s.length = s := by
  simpa using take_storeList buf s 0 (by omega)

/-- Bytes before the stored range stay. -/
theorem take_storeList_before (buf s : List Byte) (n m : Nat) (h : m ≤ n) (hn : n ≤ buf.length) :
    (storeList buf n s).take m = buf.take m := by
  simp only [storeList, List.take_take, List.append_assoc]
  rw [Nat.min_eq_left (by omega), List.take_append_of_le_length (by simp; omega), List.take_take, Nat.min_eq_left h]

/-- Bytes after the stored range stay. -/
theorem drop_storeList_after (buf s : List Byte) (n : Nat) (h : n + s.length ≤ buf.length) :
    (storeList buf n s).drop (n + s.length) = buf.drop (n + s.length) := by
  have hn : (buf.take n ++ s).length = n + s.length := by simp; omega
  have hl : (buf.take n ++ s ++ buf.drop (n + s.length)).length = buf.length := by simp; omega
  rw [storeList, ← hl, List.take_length, ← hn, List.drop_left]

@[simp] theorem toList_storeFront {n : Nat} (buf : Vector Byte n) (s : List Byte) :
    (storeFront buf s).toList = storeList buf.toList 0 s := by
  simp [storeFront]

/-- What a buffer holds after a string was stored at its front. -/
theorem take_storeFront {n : Nat} (buf : Vector Byte n) (s : List Byte) (h : s.length ≤ n) :
    (storeFront buf s).toList.take s.length = s := by
  rw [toList_storeFront, take_storeList_zero _ _ (by simpa using h)]

/-- Appending one byte to the first n bytes of a buffer. -/
theorem take_setIfInBounds {m : Nat} (buf : Vector Byte m) (n : Nat) (a : Byte) (h : n < m) :
    (buf.setIfInBounds n a).toList.take (n + 1) = buf.toList.take n ++ [a] := by
  apply List.ext_getElem
  · simp; omega
  · intro i h1 h2
    simp only [Vector.toList_setIfInBounds, List.getElem_take, List.getElem_set]
    simp at h1
    by_cases hi : n = i
    · subst hi; simp
    · have : i < n := by omega
      simp [hi, this, Nat.min_eq_left (Nat.le_of_lt h)]

end Sys2Proof.Machine
end

