-- ==== Sys2Proof/Laws/Encoding.lean ====
section
/-! SUPPORT. The fields of a command word (30_encoding.md R70): what each is as a number, and that the encoder puts each
operand in its field (R73, R74). -/

namespace Sys2Proof

theorem toNat_opField (w : Word) : (opField w).toNat = w.toNat % 256 := by
  simp [opField]

theorem toNat_aField (w : Word) : (aField w).toNat = w.toNat / 256 % 256 := by
  simp [aField, Nat.shiftRight_eq_div_pow]

theorem toNat_immField (w : Word) : (immField w).toNat = w.toNat / 65536 := by
  have := w.isLt
  simp [immField, Nat.shiftRight_eq_div_pow]
  omega

/-- The word of R74, as a number. -/
theorem toNat_encode (i : Instr) :
    (encode i).toNat = i.immOperand.toNat * 0x10000 + i.aOperand.toNat * 0x100 + i.opcode.toNat := by
  have h1 := i.immOperand.isLt
  have h2 := i.aOperand.isLt
  have h3 := i.opcode.isLt
  rw [encode, BitVec.toNat_ofNat, Nat.mod_eq_of_lt (by omega)]

theorem opField_encode (i : Instr) : opField (encode i) = i.opcode := by
  have h2 := i.aOperand.isLt
  have h3 := i.opcode.isLt
  apply BitVec.eq_of_toNat_eq
  rw [toNat_opField, toNat_encode]
  omega

theorem aField_encode (i : Instr) : aField (encode i) = i.aOperand := by
  have h2 := i.aOperand.isLt
  have h3 := i.opcode.isLt
  apply BitVec.eq_of_toNat_eq
  rw [toNat_aField, toNat_encode]
  omega

theorem immField_encode (i : Instr) : immField (encode i) = i.immOperand := by
  have h2 := i.aOperand.isLt
  have h3 := i.opcode.isLt
  apply BitVec.eq_of_toNat_eq
  rw [toNat_immField, toNat_encode]
  omega

end Sys2Proof
end

