-- ==== Sys2Proof/Laws/State.lean ====
section
/-! SUPPORT. Each field of State after each named update, so that no later proof unfolds a record update. -/

namespace Sys2Proof.Machine

variable (s : State)

@[simp] theorem State.raise_params (st : Status) : (s.raise st).params = s.params := rfl
@[simp] theorem State.raise_status (st : Status) : (s.raise st).status = statusCode st := rfl
@[simp] theorem State.raise_result (st : Status) : (s.raise st).result = s.result := rfl
@[simp] theorem State.raise_acc (st : Status) : (s.raise st).acc = s.acc := rfl
@[simp] theorem State.raise_opbuf (st : Status) : (s.raise st).opbuf = s.opbuf := rfl
@[simp] theorem State.raise_oplen (st : Status) : (s.raise st).oplen = s.oplen := rfl
@[simp] theorem State.raise_dest (st : Status) : (s.raise st).dest = s.dest := rfl
@[simp] theorem State.raise_rbuf (st : Status) : (s.raise st).rbuf = s.rbuf := rfl
@[simp] theorem State.raise_rlen (st : Status) : (s.raise st).rlen = s.rlen := rfl
@[simp] theorem State.raise_ibuf (st : Status) : (s.raise st).ibuf = s.ibuf := rfl
@[simp] theorem State.raise_inCount (st : Status) : (s.raise st).inCount = s.inCount := rfl
@[simp] theorem State.raise_lastConsumed (st : Status) : (s.raise st).lastConsumed = s.lastConsumed := rfl
@[simp] theorem State.raise_ofifo (st : Status) : (s.raise st).ofifo = s.ofifo := rfl
@[simp] theorem State.raise_scan (st : Status) : (s.raise st).scan = s.scan := rfl
@[simp] theorem State.raise_pending (st : Status) : (s.raise st).pending = s.pending := rfl
@[simp] theorem State.raise_hostData (st : Status) : (s.raise st).hostData = s.hostData := rfl

@[simp] theorem State.endOk_params : (s.endOk).params = s.params := rfl
@[simp] theorem State.endOk_status : (s.endOk).status = 0x00 := rfl
@[simp] theorem State.endOk_result : (s.endOk).result = s.result := rfl
@[simp] theorem State.endOk_acc : (s.endOk).acc = s.acc := rfl
@[simp] theorem State.endOk_opbuf : (s.endOk).opbuf = s.opbuf := rfl
@[simp] theorem State.endOk_oplen : (s.endOk).oplen = s.oplen := rfl
@[simp] theorem State.endOk_dest : (s.endOk).dest = s.dest := rfl
@[simp] theorem State.endOk_rbuf : (s.endOk).rbuf = s.rbuf := rfl
@[simp] theorem State.endOk_rlen : (s.endOk).rlen = s.rlen := rfl
@[simp] theorem State.endOk_ibuf : (s.endOk).ibuf = s.ibuf := rfl
@[simp] theorem State.endOk_inCount : (s.endOk).inCount = s.inCount := rfl
@[simp] theorem State.endOk_lastConsumed : (s.endOk).lastConsumed = s.lastConsumed := rfl
@[simp] theorem State.endOk_ofifo : (s.endOk).ofifo = s.ofifo := rfl
@[simp] theorem State.endOk_scan : (s.endOk).scan = s.scan := rfl
@[simp] theorem State.endOk_pending : (s.endOk).pending = s.pending := rfl
@[simp] theorem State.endOk_hostData : (s.endOk).hostData = s.hostData := rfl

@[simp] theorem State.writeResult_params (w : Word) : (s.writeResult w).params = s.params := rfl
@[simp] theorem State.writeResult_status (w : Word) : (s.writeResult w).status = s.status := rfl
@[simp] theorem State.writeResult_result (w : Word) : (s.writeResult w).result = w := rfl
@[simp] theorem State.writeResult_acc (w : Word) : (s.writeResult w).acc = s.acc := rfl
@[simp] theorem State.writeResult_opbuf (w : Word) : (s.writeResult w).opbuf = s.opbuf := rfl
@[simp] theorem State.writeResult_oplen (w : Word) : (s.writeResult w).oplen = s.oplen := rfl
@[simp] theorem State.writeResult_dest (w : Word) : (s.writeResult w).dest = s.dest := rfl
@[simp] theorem State.writeResult_rbuf (w : Word) : (s.writeResult w).rbuf = s.rbuf := rfl
@[simp] theorem State.writeResult_rlen (w : Word) : (s.writeResult w).rlen = s.rlen := rfl
@[simp] theorem State.writeResult_ibuf (w : Word) : (s.writeResult w).ibuf = s.ibuf := rfl
@[simp] theorem State.writeResult_inCount (w : Word) : (s.writeResult w).inCount = s.inCount := rfl
@[simp] theorem State.writeResult_lastConsumed (w : Word) : (s.writeResult w).lastConsumed = s.lastConsumed := rfl
@[simp] theorem State.writeResult_ofifo (w : Word) : (s.writeResult w).ofifo = s.ofifo := rfl
@[simp] theorem State.writeResult_scan (w : Word) : (s.writeResult w).scan = s.scan := rfl
@[simp] theorem State.writeResult_pending (w : Word) : (s.writeResult w).pending = s.pending := rfl
@[simp] theorem State.writeResult_hostData (w : Word) : (s.writeResult w).hostData = s.hostData := rfl

@[simp] theorem State.writeResultString_params (bs : List Byte) : (s.writeResultString bs).params = s.params := rfl
@[simp] theorem State.writeResultString_status (bs : List Byte) : (s.writeResultString bs).status = s.status := rfl
@[simp] theorem State.writeResultString_result (bs : List Byte) : (s.writeResultString bs).result = BitVec.ofNat 32 bs.length := rfl
@[simp] theorem State.writeResultString_acc (bs : List Byte) : (s.writeResultString bs).acc = s.acc := rfl
@[simp] theorem State.writeResultString_opbuf (bs : List Byte) : (s.writeResultString bs).opbuf = s.opbuf := rfl
@[simp] theorem State.writeResultString_oplen (bs : List Byte) : (s.writeResultString bs).oplen = s.oplen := rfl
@[simp] theorem State.writeResultString_dest (bs : List Byte) : (s.writeResultString bs).dest = s.dest := rfl
@[simp] theorem State.writeResultString_rbuf (bs : List Byte) : (s.writeResultString bs).rbuf = storeFront s.rbuf bs := rfl
@[simp] theorem State.writeResultString_rlen (bs : List Byte) : (s.writeResultString bs).rlen = bs.length := rfl
@[simp] theorem State.writeResultString_ibuf (bs : List Byte) : (s.writeResultString bs).ibuf = s.ibuf := rfl
@[simp] theorem State.writeResultString_inCount (bs : List Byte) : (s.writeResultString bs).inCount = s.inCount := rfl
@[simp] theorem State.writeResultString_lastConsumed (bs : List Byte) : (s.writeResultString bs).lastConsumed = s.lastConsumed := rfl
@[simp] theorem State.writeResultString_ofifo (bs : List Byte) : (s.writeResultString bs).ofifo = s.ofifo := rfl
@[simp] theorem State.writeResultString_scan (bs : List Byte) : (s.writeResultString bs).scan = s.scan := rfl
@[simp] theorem State.writeResultString_pending (bs : List Byte) : (s.writeResultString bs).pending = s.pending := rfl
@[simp] theorem State.writeResultString_hostData (bs : List Byte) : (s.writeResultString bs).hostData = s.hostData := rfl

@[simp] theorem State.writeOperand_params (bs : List Byte) : (s.writeOperand bs).params = s.params := rfl
@[simp] theorem State.writeOperand_status (bs : List Byte) : (s.writeOperand bs).status = s.status := rfl
@[simp] theorem State.writeOperand_result (bs : List Byte) : (s.writeOperand bs).result = s.result := rfl
@[simp] theorem State.writeOperand_acc (bs : List Byte) : (s.writeOperand bs).acc = s.acc := rfl
@[simp] theorem State.writeOperand_opbuf (bs : List Byte) : (s.writeOperand bs).opbuf = storeFront s.opbuf bs := rfl
@[simp] theorem State.writeOperand_oplen (bs : List Byte) : (s.writeOperand bs).oplen = bs.length := rfl
@[simp] theorem State.writeOperand_dest (bs : List Byte) : (s.writeOperand bs).dest = s.dest := rfl
@[simp] theorem State.writeOperand_rbuf (bs : List Byte) : (s.writeOperand bs).rbuf = s.rbuf := rfl
@[simp] theorem State.writeOperand_rlen (bs : List Byte) : (s.writeOperand bs).rlen = s.rlen := rfl
@[simp] theorem State.writeOperand_ibuf (bs : List Byte) : (s.writeOperand bs).ibuf = s.ibuf := rfl
@[simp] theorem State.writeOperand_inCount (bs : List Byte) : (s.writeOperand bs).inCount = s.inCount := rfl
@[simp] theorem State.writeOperand_lastConsumed (bs : List Byte) : (s.writeOperand bs).lastConsumed = s.lastConsumed := rfl
@[simp] theorem State.writeOperand_ofifo (bs : List Byte) : (s.writeOperand bs).ofifo = s.ofifo := rfl
@[simp] theorem State.writeOperand_scan (bs : List Byte) : (s.writeOperand bs).scan = s.scan := rfl
@[simp] theorem State.writeOperand_pending (bs : List Byte) : (s.writeOperand bs).pending = s.pending := rfl
@[simp] theorem State.writeOperand_hostData (bs : List Byte) : (s.writeOperand bs).hostData = s.hostData := rfl

@[simp] theorem State.pushOperand_params (a : Byte) : (s.pushOperand a).params = s.params := rfl
@[simp] theorem State.pushOperand_status (a : Byte) : (s.pushOperand a).status = s.status := rfl
@[simp] theorem State.pushOperand_result (a : Byte) : (s.pushOperand a).result = s.result := rfl
@[simp] theorem State.pushOperand_acc (a : Byte) : (s.pushOperand a).acc = s.acc := rfl
@[simp] theorem State.pushOperand_opbuf (a : Byte) : (s.pushOperand a).opbuf = s.opbuf.setIfInBounds s.oplen a := rfl
@[simp] theorem State.pushOperand_oplen (a : Byte) : (s.pushOperand a).oplen = s.oplen + 1 := rfl
@[simp] theorem State.pushOperand_dest (a : Byte) : (s.pushOperand a).dest = s.dest := rfl
@[simp] theorem State.pushOperand_rbuf (a : Byte) : (s.pushOperand a).rbuf = s.rbuf := rfl
@[simp] theorem State.pushOperand_rlen (a : Byte) : (s.pushOperand a).rlen = s.rlen := rfl
@[simp] theorem State.pushOperand_ibuf (a : Byte) : (s.pushOperand a).ibuf = s.ibuf := rfl
@[simp] theorem State.pushOperand_inCount (a : Byte) : (s.pushOperand a).inCount = s.inCount := rfl
@[simp] theorem State.pushOperand_lastConsumed (a : Byte) : (s.pushOperand a).lastConsumed = s.lastConsumed := rfl
@[simp] theorem State.pushOperand_ofifo (a : Byte) : (s.pushOperand a).ofifo = s.ofifo := rfl
@[simp] theorem State.pushOperand_scan (a : Byte) : (s.pushOperand a).scan = s.scan := rfl
@[simp] theorem State.pushOperand_pending (a : Byte) : (s.pushOperand a).pending = s.pending := rfl
@[simp] theorem State.pushOperand_hostData (a : Byte) : (s.pushOperand a).hostData = s.hostData := rfl

@[simp] theorem State.appendInput_params (bs : List Byte) : (s.appendInput bs).params = s.params := rfl
@[simp] theorem State.appendInput_status (bs : List Byte) : (s.appendInput bs).status = s.status := rfl
@[simp] theorem State.appendInput_result (bs : List Byte) : (s.appendInput bs).result = s.result := rfl
@[simp] theorem State.appendInput_acc (bs : List Byte) : (s.appendInput bs).acc = s.acc := rfl
@[simp] theorem State.appendInput_opbuf (bs : List Byte) : (s.appendInput bs).opbuf = s.opbuf := rfl
@[simp] theorem State.appendInput_oplen (bs : List Byte) : (s.appendInput bs).oplen = s.oplen := rfl
@[simp] theorem State.appendInput_dest (bs : List Byte) : (s.appendInput bs).dest = s.dest := rfl
@[simp] theorem State.appendInput_rbuf (bs : List Byte) : (s.appendInput bs).rbuf = s.rbuf := rfl
@[simp] theorem State.appendInput_rlen (bs : List Byte) : (s.appendInput bs).rlen = s.rlen := rfl
@[simp] theorem State.appendInput_ibuf (bs : List Byte) : (s.appendInput bs).ibuf = storeList s.ibuf s.inCount bs := rfl
@[simp] theorem State.appendInput_inCount (bs : List Byte) : (s.appendInput bs).inCount = s.inCount + bs.length := rfl
@[simp] theorem State.appendInput_lastConsumed (bs : List Byte) : (s.appendInput bs).lastConsumed = s.lastConsumed := rfl
@[simp] theorem State.appendInput_ofifo (bs : List Byte) : (s.appendInput bs).ofifo = s.ofifo := rfl
@[simp] theorem State.appendInput_scan (bs : List Byte) : (s.appendInput bs).scan = s.scan := rfl
@[simp] theorem State.appendInput_pending (bs : List Byte) : (s.appendInput bs).pending = s.pending := rfl
@[simp] theorem State.appendInput_hostData (bs : List Byte) : (s.appendInput bs).hostData = s.hostData := rfl

@[simp] theorem State.compact_params (cb : Nat) : (s.compact cb).params = s.params := rfl
@[simp] theorem State.compact_status (cb : Nat) : (s.compact cb).status = s.status := rfl
@[simp] theorem State.compact_result (cb : Nat) : (s.compact cb).result = s.result := rfl
@[simp] theorem State.compact_acc (cb : Nat) : (s.compact cb).acc = s.acc := rfl
@[simp] theorem State.compact_opbuf (cb : Nat) : (s.compact cb).opbuf = s.opbuf := rfl
@[simp] theorem State.compact_oplen (cb : Nat) : (s.compact cb).oplen = s.oplen := rfl
@[simp] theorem State.compact_dest (cb : Nat) : (s.compact cb).dest = s.dest := rfl
@[simp] theorem State.compact_rbuf (cb : Nat) : (s.compact cb).rbuf = s.rbuf := rfl
@[simp] theorem State.compact_rlen (cb : Nat) : (s.compact cb).rlen = s.rlen := rfl
@[simp] theorem State.compact_ibuf (cb : Nat) : (s.compact cb).ibuf = storeList s.ibuf 0 (s.buffered.drop cb) := rfl
@[simp] theorem State.compact_inCount (cb : Nat) : (s.compact cb).inCount = s.inCount - cb := rfl
@[simp] theorem State.compact_lastConsumed (cb : Nat) : (s.compact cb).lastConsumed = cb := rfl
@[simp] theorem State.compact_ofifo (cb : Nat) : (s.compact cb).ofifo = s.ofifo := rfl
@[simp] theorem State.compact_scan (cb : Nat) : (s.compact cb).scan = s.scan := rfl
@[simp] theorem State.compact_pending (cb : Nat) : (s.compact cb).pending = s.pending := rfl
@[simp] theorem State.compact_hostData (cb : Nat) : (s.compact cb).hostData = s.hostData := rfl

@[simp] theorem State.commitScan_params (c : Scan) : (s.commitScan c).params = s.params := rfl
@[simp] theorem State.commitScan_status (c : Scan) : (s.commitScan c).status = s.status := rfl
@[simp] theorem State.commitScan_result (c : Scan) : (s.commitScan c).result = s.result := rfl
@[simp] theorem State.commitScan_acc (c : Scan) : (s.commitScan c).acc = s.acc := rfl
@[simp] theorem State.commitScan_opbuf (c : Scan) : (s.commitScan c).opbuf = s.opbuf := rfl
@[simp] theorem State.commitScan_oplen (c : Scan) : (s.commitScan c).oplen = s.oplen := rfl
@[simp] theorem State.commitScan_dest (c : Scan) : (s.commitScan c).dest = s.dest := rfl
@[simp] theorem State.commitScan_rbuf (c : Scan) : (s.commitScan c).rbuf = s.rbuf := rfl
@[simp] theorem State.commitScan_rlen (c : Scan) : (s.commitScan c).rlen = s.rlen := rfl
@[simp] theorem State.commitScan_ibuf (c : Scan) : (s.commitScan c).ibuf = storeList s.ibuf 0 (s.buffered.drop c.regs.cb) := rfl
@[simp] theorem State.commitScan_inCount (c : Scan) : (s.commitScan c).inCount = s.inCount - c.regs.cb := rfl
@[simp] theorem State.commitScan_lastConsumed (c : Scan) : (s.commitScan c).lastConsumed = c.regs.cb := rfl
@[simp] theorem State.commitScan_ofifo (c : Scan) : (s.commitScan c).ofifo = s.ofifo := rfl
@[simp] theorem State.commitScan_scan (c : Scan) : (s.commitScan c).scan = { c.regs with fsm := .seekStart } := rfl
@[simp] theorem State.commitScan_pending (c : Scan) : (s.commitScan c).pending = s.pending := rfl
@[simp] theorem State.commitScan_hostData (c : Scan) : (s.commitScan c).hostData = s.hostData := rfl

@[simp] theorem ScanRegs.start_fsm (r : ScanRegs) : r.start.fsm = .seekStart := rfl
@[simp] theorem ScanRegs.start_cb (r : ScanRegs) : r.start.cb = 0 := rfl
@[simp] theorem ScanRegs.start_i (r : ScanRegs) : r.start.i = 0 := rfl

end Sys2Proof.Machine
end

