-- ==== Sys2Proof/Laws/Scan.lean ====
section
/-! SUPPORT. The scan without its registers: a scan is determined by the bytes p of the candidate it is reading, and
`candStep` says what one byte does to them. `byte_sim` and `loop_all`, `loop_first` say once what the loop of
43_stream_parser.md R172 can do; later proofs cite them. -/

namespace Sys2Proof.Machine

/-- What byte b does to the candidate p (empty in SEEK_START): the candidate after it, and a frame if one is found. -/
def candStep (zeroOk : Bool) (p : List Byte) (b : Byte) : List Byte × Option (List Byte) :=
  if p.length = 0 then (if b = 0x7E then [b] else [], none)
  else if 3 ≤ p.length ∧ p.length = be16 p 1 + 3 then
    ([], if b = checksum (p.drop 3) then some (p ++ [b]) else none)
  else if b = 0x7E then ([b], none)
  else if p.length = 2 ∧ lengthRejected zeroOk (be16 (p ++ [b]) 1) = true then ([], none)
  else (p ++ [b], none)

/-- The frames found, and the candidate left, after reading a byte string. -/
def candRun (zeroOk : Bool) : List Byte → List Byte → List (List Byte) × List Byte
  | p, [] => ([], p)
  | p, b :: bs =>
    let r := candRun zeroOk (candStep zeroOk p b).1 bs
    ((candStep zeroOk p b).2.toList ++ r.1, r.2)

/-- r is the registers of a scan of `span` that is reading candidate p and has `rest` still to examine. -/
structure Reading (span : List Byte) (r : ScanRegs) (p rest : List Byte) : Prop where
  split : span.drop r.cb = p ++ rest
  idx : r.i = r.cb + p.length
  seek : r.fsm = .seekStart ↔ p = []
  start : p ≠ [] → r.cs = r.cb
  lenHi : r.fsm = .lenHi ↔ p.length = 1
  lenLo : r.fsm = .lenLo ↔ p.length = 2
  lh : r.fsm = .lenLo → r.lh = byteAt p 1
  body : r.fsm = .body → p.length = r.k.toNat + 3 ∧ r.k.toNat ≤ r.l.toNat ∧ r.l.toNat ≤ 124 ∧ r.l.toNat = be16 p 1 ∧
    r.stage.toList.take r.k.toNat = p.drop 3

theorem be16_append {p : List Byte} (q : List Byte) (h : 3 ≤ p.length) : be16 (p ++ q) 1 = be16 p 1 := by
  unfold be16 byteAt
  rw [List.getD_append _ _ _ _ (by omega), List.getD_append _ _ _ _ (by omega)]

theorem drop_drop_of_split {span p rest : List Byte} {cb : Nat} (h : span.drop cb = p ++ rest) :
    span.drop (cb + p.length) = rest := by
  rw [← List.drop_drop, h, List.drop_left]

theorem slice_of_split {span p rest : List Byte} {b : Byte} {cb : Nat} (h : span.drop cb = p ++ b :: rest) :
    slice span cb (cb + p.length + 1) = p ++ [b] := by
  have : cb + p.length + 1 - cb = (p ++ [b]).length := by simp; omega
  rw [slice, h, this, show p ++ b :: rest = (p ++ [b]) ++ rest by simp, List.take_left' rfl]

/-- One byte, once and for all: the registers go on reading the candidate `candStep` says, and a frame found is
emitted, stops a full queue, or ends a FIRST scan. -/
theorem byte_sim (mode : ScanMode) (zeroOk : Bool) {span p rest : List Byte} {b : Byte} {c : Scan}
    (h : Reading span c.regs p (b :: rest)) :
    ∃ r', Reading span r' (candStep zeroOk p b).1 rest ∧
      c.byte mode zeroOk span b =
        match (candStep zeroOk p b).2 with
        | none => { c with regs := r' }
        | some f =>
          match mode with
          | .all room =>
            if c.frames.length = room then { c with stop := .outFull }
            else { c with regs := r', frames := c.frames ++ [f] }
          | .first => { regs := r', frames := c.frames ++ [f], stop := .found } := by
  have hrest := drop_drop_of_split h.split
  have hrest' : span.drop (c.regs.cb + p.length + 1) = rest := by
    rw [← List.drop_drop, hrest]; rfl
  have hconsume : ∀ r : ScanRegs, r.i = c.regs.i → Reading span r.consume [] rest := by
    intro r hr
    constructor <;> simp [ScanRegs.consume, hr, h.idx, hrest']
  have hsync : b = 126#8 → ∀ r : ScanRegs, r.i = c.regs.i → Reading span r.resync [b] rest := by
    intro hb r hr
    constructor <;> simp [ScanRegs.resync, hr, h.idx, hrest]
  rcases hf : c.regs.fsm with _ | _ | _ | _
  · -- SEEK_START
    have hp : p = [] := h.seek.1 hf
    subst hp
    refine ⟨c.regs.seek b, ?_, ?_⟩
    · by_cases hb : b = 126#8
      · have hi : c.regs.i = c.regs.cb := by simpa using h.idx
        subst hb; constructor <;> simp [ScanRegs.seek, candStep, hi, h.split]
      · simpa [ScanRegs.seek, candStep, hb] using hconsume c.regs rfl
    · simp [Scan.byte, hf, candStep]
  · -- LEN_HI
    have hp : p.length = 1 := h.lenHi.1 hf
    have hne : p ≠ [] := by rintro rfl; simp at hp
    by_cases hb : b = 126#8
    · refine ⟨c.regs.resync, ?_, ?_⟩
      · simpa [candStep, hp, hb] using hsync hb c.regs rfl
      · simp [Scan.byte, hf, candStep, hp, hb]
    · refine ⟨c.regs.takeLenHi b, ?_, ?_⟩
      · have hcs := h.start hne
        have hi := h.idx
        obtain ⟨x, rfl⟩ := List.length_eq_one_iff.1 hp
        constructor <;> simp [ScanRegs.takeLenHi, candStep, hb, hcs, hi, h.split, byteAt]
      · simp [Scan.byte, hf, candStep, hp, hb]
  · -- LEN_LO
    have hp : p.length = 2 := h.lenLo.1 hf
    have hne : p ≠ [] := by rintro rfl; simp at hp
    by_cases hb : b = 126#8
    · refine ⟨c.regs.resync, ?_, ?_⟩
      · simpa [candStep, hp, hb] using hsync hb c.regs rfl
      · simp [Scan.byte, hf, candStep, hp, hb]
    · have hlh := h.lh hf
      obtain ⟨x, y, rfl⟩ := List.length_eq_two.1 hp
      have hl : be16 [x, y, b] 1 = c.regs.lh.toNat * 256 + b.toNat := by simp [be16, hlh, byteAt]
      have hmod : (c.regs.lh.toNat * 256 + b.toNat) % 65536 = c.regs.lh.toNat * 256 + b.toNat := by omega
      refine ⟨c.regs.takeLenLo zeroOk b, ?_, ?_⟩
      · by_cases hrej : lengthRejected zeroOk (be16 [x, y, b] 1) = true
        · have := hconsume { c.regs with l := BitVec.ofNat 16 (c.regs.lh.toNat * 256 + b.toNat) } rfl
          rw [hl] at hrej
          simpa [candStep, hb, hl, hrej, hmod, ScanRegs.takeLenLo] using this
        · have hcs := h.start hne
          have hi := h.idx
          rw [hl] at hrej
          have hbound : c.regs.lh.toNat * 256 + b.toNat ≤ 124 := by
            simp [lengthRejected, Config.maxFrame] at hrej; omega
          constructor <;> simp [ScanRegs.takeLenLo, candStep, hb, hl, hrej, hmod, hcs, hi, h.split, hbound]
      · by_cases hrej : lengthRejected zeroOk (be16 [x, y, b] 1) = true <;> simp [Scan.byte, hf, candStep, hb, hrej]
  · -- BODY
    obtain ⟨hp, hkl, hl, hbe, hst⟩ := h.body hf
    have hne : p ≠ [] := by rintro rfl; simp at hp
    have hcs := h.start hne
    have hi := h.idx
    by_cases hk : c.regs.k.toNat = c.regs.l.toNat
    · have hv : p.length = be16 p 1 + 3 := by omega
      have hstaged : c.regs.staged = p.drop 3 := by rw [ScanRegs.staged, ← hk, hst]
      have hfr : slice span c.regs.cs (c.regs.i + 1) = p ++ [b] := by
        rw [hcs, hi]; exact slice_of_split h.split
      have h0 : p.length ≠ 0 := by omega
      have h3 : 3 ≤ be16 p 1 + 3 := by omega
      refine ⟨c.regs.consume, ?_, ?_⟩
      · simpa [candStep, h0, h3, hv] using hconsume c.regs rfl
      · simp only [Scan.byte, hf, hk, if_true, Scan.verify, candStep, hv, h3, hstaged, hfr]
        by_cases hc : b = checksum (p.drop 3) <;> cases mode <;> simp [hc]
    · have hv : ¬ p.length = be16 p 1 + 3 := by omega
      have h0 : p.length ≠ 0 := by omega
      have h2 : p.length ≠ 2 := by omega
      by_cases hb : b = 126#8
      · refine ⟨c.regs.resync, ?_, ?_⟩
        · simpa [candStep, h0, hv, hb] using hsync hb c.regs rfl
        · simp [Scan.byte, hf, hk, candStep, h0, hv, hb]
      · refine ⟨c.regs.takeBody b, ?_, ?_⟩
        · have hstep : (candStep zeroOk p b).1 = p ++ [b] := by simp [candStep, h0, hv, hb, h2]
          rw [hstep]
          refine ⟨?_, ?_, ?_, ?_, ?_, ?_, ?_, ?_⟩
          · simp [ScanRegs.takeBody, h.split]
          · simp [ScanRegs.takeBody, hi]; omega
          · simp [ScanRegs.takeBody, hf]
          · simp [ScanRegs.takeBody, hcs]
          · simp [ScanRegs.takeBody, hf, h0]
          · simp [ScanRegs.takeBody, hf]; omega
          · simp [ScanRegs.takeBody, hf]
          · intro _
            have hk1 : (c.regs.k + 1).toNat = c.regs.k.toNat + 1 := by simp; omega
            have : be16 (p ++ [b]) 1 = be16 p 1 := be16_append _ (by omega)
            refine ⟨by simp [ScanRegs.takeBody]; omega, by simp [ScanRegs.takeBody]; omega, hl, by rw [this]; exact hbe, ?_⟩
            simp only [ScanRegs.takeBody, hk1]
            rw [take_setIfInBounds _ _ _ (by omega), hst, List.drop_append_of_le_length (by omega)]
        · simp [Scan.byte, hf, hk, candStep, h0, hv, hb, h2]



@[simp] theorem candRun_nil (zeroOk : Bool) (p : List Byte) : candRun zeroOk p [] = ([], p) := rfl

theorem candRun_cons (zeroOk : Bool) (p : List Byte) (b : Byte) (bs : List Byte) :
    candRun zeroOk p (b :: bs) =
      ((candStep zeroOk p b).2.toList ++ (candRun zeroOk (candStep zeroOk p b).1 bs).1,
        (candRun zeroOk (candStep zeroOk p b).1 bs).2) := rfl

/-- A frame found leaves no candidate. -/
theorem candStep_emits {zeroOk : Bool} {p f : List Byte} {b : Byte} (h : (candStep zeroOk p b).2 = some f) :
    (candStep zeroOk p b).1 = [] := by
  unfold candStep at h ⊢
  split_ifs at h ⊢
  all_goals simp_all

/-- A frame found is the candidate and the byte read. -/
theorem candStep_emits_snoc {zeroOk : Bool} {p f : List Byte} {b : Byte} (h : (candStep zeroOk p b).2 = some f) :
    f = p ++ [b] := by
  unfold candStep at h
  split_ifs at h
  all_goals simp_all

theorem loop_cons (mode : ScanMode) (zeroOk : Bool) (span : List Byte) (c : Scan) (b : Byte) (bs : List Byte) :
    Scan.loop mode zeroOk span c (b :: bs) =
      if (c.byte mode zeroOk span b).stop = .endOfSpan
      then Scan.loop mode zeroOk span (c.byte mode zeroOk span b) bs else c.byte mode zeroOk span b := rfl

/-- What the ALL loop does: with room for every frame it reads all bytes and emits every frame; else it fills the room
and stops with the next frame still to be read. -/
theorem loop_all (zeroOk : Bool) (span : List Byte) (room : Nat) (bs : List Byte) :
    ∀ (p : List Byte) (c : Scan), Reading span c.regs p bs → c.stop = .endOfSpan → c.frames.length ≤ room →
      let c' := Scan.loop (.all room) zeroOk span c bs
      let r := candRun zeroOk p bs
      (c.frames.length + r.1.length ≤ room →
        c'.stop = .endOfSpan ∧ c'.frames = c.frames ++ r.1 ∧ Reading span c'.regs r.2 []) ∧
      (room < c.frames.length + r.1.length →
        c'.stop = .outFull ∧ c'.frames = c.frames ++ r.1.take (room - c.frames.length) ∧
        ∃ q b rest, Reading span c'.regs q (b :: rest) ∧ (candStep zeroOk q b).2 = some (q ++ [b]) ∧
          candRun zeroOk q (b :: rest) = (r.1.drop (room - c.frames.length), r.2)) := by
  induction bs with
  | nil =>
    intro p c hR hs hroom
    refine ⟨fun _ => ⟨hs, by simp [Scan.loop], hR⟩, fun h => ?_⟩
    simp at h; omega
  | cons b bs ih =>
    intro p c hR hs hroom
    obtain ⟨r', hR', hbyte⟩ := byte_sim (.all room) zeroOk hR
    simp only [loop_cons, candRun_cons zeroOk p b bs]
    rcases hstep : (candStep zeroOk p b).2 with _ | f
    · rw [hstep] at hbyte
      simp only at hbyte
      have := ih _ { c with regs := r' } hR' hs hroom
      rw [hbyte]
      simpa [hs] using this
    · have hq := candStep_emits hstep
      rw [hstep] at hbyte
      simp only at hbyte
      by_cases hfull : c.frames.length = room
      · rw [if_pos hfull] at hbyte
        rw [hbyte]
        refine ⟨fun h => by simp at h; omega, fun _ => ⟨by simp, by simp [hfull], p, b, bs, ?_, ?_, ?_⟩⟩
        · simpa using hR
        · rw [hstep, candStep_emits_snoc hstep]
        · simp [candRun_cons, hstep, hfull]
      · rw [if_neg hfull] at hbyte
        rw [hbyte]
        have := ih _ { regs := r', frames := c.frames ++ [f], stop := c.stop } hR' hs (by simp; omega)
        have hd : room - c.frames.length = (room - (c.frames.length + 1)) + 1 := by omega
        simp only [hs, List.length_append, List.length_cons, List.length_nil, if_true, Option.toList_some,
          List.append_assoc, List.singleton_append, hd, List.take_succ_cons, List.drop_succ_cons] at this ⊢
        refine ⟨fun h => this.1 (by omega), fun h => this.2 (by omega)⟩

/-- What the FIRST loop does: it stops just past the first frame, or reads all bytes when there is none. -/
theorem loop_first (zeroOk : Bool) (span : List Byte) (bs : List Byte) :
    ∀ (p : List Byte) (c : Scan), Reading span c.regs p bs → c.stop = .endOfSpan →
      let c' := Scan.loop .first zeroOk span c bs
      let r := candRun zeroOk p bs
      (r.1 = [] → c'.stop = .endOfSpan ∧ c'.frames = c.frames ∧ Reading span c'.regs r.2 []) ∧
      (∀ f fs, r.1 = f :: fs →
        c'.stop = .found ∧ c'.frames = c.frames ++ [f] ∧
        ∃ rest, Reading span c'.regs [] rest ∧ candRun zeroOk [] rest = (fs, r.2)) := by
  induction bs with
  | nil =>
    intro p c hR hs
    exact ⟨fun _ => ⟨hs, rfl, hR⟩, fun f fs h => by simp at h⟩
  | cons b bs ih =>
    intro p c hR hs
    obtain ⟨r', hR', hbyte⟩ := byte_sim .first zeroOk hR
    simp only [loop_cons, candRun_cons zeroOk p b bs]
    rcases hstep : (candStep zeroOk p b).2 with _ | f
    · rw [hstep] at hbyte
      simp only at hbyte
      have := ih _ { c with regs := r' } hR' hs
      rw [hbyte]
      simpa [hs] using this
    · have hq := candStep_emits hstep
      rw [hstep] at hbyte
      simp only at hbyte
      rw [hbyte]
      refine ⟨fun h => by simp at h, fun g fs h => ?_⟩
      simp only [Option.toList_some, List.singleton_append, List.cons.injEq] at h
      obtain ⟨rfl, rfl⟩ := h
      refine ⟨by simp, by simp, bs, ?_, ?_⟩
      · simpa [hq] using hR'
      · rw [hq]

/-- A scan starts reading no candidate. -/
theorem reading_start (r : ScanRegs) (span : List Byte) : Reading span r.start [] span := by
  constructor <;> simp [ScanRegs.start]


theorem candRun_append (zeroOk : Bool) (p xs ys : List Byte) :
    candRun zeroOk p (xs ++ ys) =
      ((candRun zeroOk p xs).1 ++ (candRun zeroOk (candRun zeroOk p xs).2 ys).1,
        (candRun zeroOk (candRun zeroOk p xs).2 ys).2) := by
  induction xs generalizing p with
  | nil => simp
  | cons b xs ih => simp [candRun_cons, ih]

/-- What an ALL scan with room for every frame finds, and the candidate it leaves unread. -/
theorem scanSpan_all (zeroOk : Bool) (r : ScanRegs) (span : List Byte) (room : Nat)
    (h : (candRun zeroOk [] span).1.length ≤ room) :
    (scanSpan (.all room) zeroOk r span).stop = .endOfSpan ∧
      (scanSpan (.all room) zeroOk r span).frames = (candRun zeroOk [] span).1 ∧
      Reading span (scanSpan (.all room) zeroOk r span).regs (candRun zeroOk [] span).2 [] := by
  have := (loop_all zeroOk span room span [] ⟨r.start, [], .endOfSpan⟩ (reading_start r span) rfl (by simp)).1 (by simpa using h)
  simpa [scanSpan] using this

/-- What an ALL scan finds when there is not room for every frame. -/
theorem scanSpan_outFull (zeroOk : Bool) (r : ScanRegs) (span : List Byte) (room : Nat)
    (h : room < (candRun zeroOk [] span).1.length) :
    (scanSpan (.all room) zeroOk r span).stop = .outFull ∧
      (scanSpan (.all room) zeroOk r span).frames = (candRun zeroOk [] span).1.take room ∧
      ∃ q b rest, Reading span (scanSpan (.all room) zeroOk r span).regs q (b :: rest) ∧
        (candStep zeroOk q b).2 = some (q ++ [b]) ∧
        candRun zeroOk q (b :: rest) = ((candRun zeroOk [] span).1.drop room, (candRun zeroOk [] span).2) := by
  have := (loop_all zeroOk span room span [] ⟨r.start, [], .endOfSpan⟩ (reading_start r span) rfl (by simp)).2 (by simpa using h)
  simpa [scanSpan] using this

/-- What a FIRST scan finds when there is no frame. -/
theorem scanSpan_first_none (zeroOk : Bool) (r : ScanRegs) (span : List Byte) (h : (candRun zeroOk [] span).1 = []) :
    (scanSpan .first zeroOk r span).stop = .endOfSpan ∧
      (scanSpan .first zeroOk r span).frames = [] ∧
      Reading span (scanSpan .first zeroOk r span).regs (candRun zeroOk [] span).2 [] :=
  (loop_first zeroOk span span [] _ (reading_start r span) rfl).1 h

/-- What a FIRST scan finds when there is a frame. -/
theorem scanSpan_first_some (zeroOk : Bool) (r : ScanRegs) (span f : List Byte) (fs : List (List Byte))
    (h : (candRun zeroOk [] span).1 = f :: fs) :
    (scanSpan .first zeroOk r span).stop = .found ∧
      (scanSpan .first zeroOk r span).frames = [f] ∧
      ∃ rest, Reading span (scanSpan .first zeroOk r span).regs [] rest ∧
        candRun zeroOk [] rest = (fs, (candRun zeroOk [] span).2) :=
  (loop_first zeroOk span span [] _ (reading_start r span) rfl).2 f fs h

end Sys2Proof.Machine
end

