-- ==== Sys2Proof/Laws/Frames.lean ====
section
/-! SUPPORT. What a scan can be reading and what it can emit: candidates (43_stream_parser.md R180), the frames they
complete, and reading a candidate again (R182). -/

namespace Sys2Proof.Machine

theorem byteAt_append_left {p q : List Byte} {j : Nat} (h : j < p.length) : byteAt (p ++ q) j = byteAt p j := by
  rw [byteAt, byteAt, List.getD_append _ _ _ _ h]

theorem byteAt_append_right {p q : List Byte} {j : Nat} (h : p.length ≤ j) :
    byteAt (p ++ q) j = byteAt q (j - p.length) := by
  rw [byteAt, byteAt, List.getD_append_right _ _ _ _ h]

/-- What a scan can be reading: nothing, or a partial candidate. -/
def Candidate (zeroOk : Bool) (p : List Byte) : Prop := p = [] ∨ PartialCandidate zeroOk p

theorem lengthRejected_eq_false {zeroOk : Bool} {l : Nat} :
    lengthRejected zeroOk l = false ↔ l ≤ 124 ∧ (l = 0 → zeroOk = true) := by
  simp [lengthRejected, Config.maxFrame]

theorem PartialCandidate.start (zeroOk : Bool) : PartialCandidate zeroOk [0x7E] :=
  ⟨by simp, rfl, fun j h1 h2 => by simp at h2; omega, .inl (by simp)⟩

/-- A candidate one byte longer is a candidate, when the byte is no 0x7E and the LENGTH allows it. -/
theorem PartialCandidate.snoc {zeroOk : Bool} {p : List Byte} {b : Byte} (h : PartialCandidate zeroOk p)
    (hb : b ≠ 0x7E) (hl : p.length + 1 ≤ 2 ∨
      (be16 (p ++ [b]) 1 ≤ 124 ∧ (be16 (p ++ [b]) 1 = 0 → zeroOk = true) ∧ p.length + 1 < be16 (p ++ [b]) 1 + 4)) :
    PartialCandidate zeroOk (p ++ [b]) := by
  obtain ⟨h0, h1, h2, _⟩ := h
  have hp : 0 < p.length := List.length_pos_iff.2 h0
  refine ⟨by simp, by rwa [byteAt_append_left hp], fun j hj hj' => ?_, by simpa using hl⟩
  by_cases hjp : j < p.length
  · rw [byteAt_append_left hjp]; exact h2 j hj hjp
  · rw [byteAt_append_right (by omega)]
    simp at hj'
    rw [show j - p.length = 0 by omega]
    simpa [byteAt] using hb

/-- What one byte does to a candidate: it makes a new candidate, extends it, drops it, or completes a frame. -/
theorem candStep_cases {zeroOk : Bool} {p : List Byte} (hp : Candidate zeroOk p) (b : Byte) :
    (candStep zeroOk p b = ([], none)) ∨ (candStep zeroOk p b = ([0x7E], none) ∧ b = 0x7E) ∨
    (candStep zeroOk p b = (p ++ [b], none) ∧ PartialCandidate zeroOk (p ++ [b]) ∧ PartialCandidate zeroOk p) ∨
    (candStep zeroOk p b = ([], some (p ++ [b])) ∧ PartialCandidate zeroOk p ∧ 3 ≤ p.length ∧
      p.length = be16 p 1 + 3 ∧ b = checksum (p.drop 3)) := by
  rcases hp with rfl | hp
  · by_cases hb : b = 126#8
    · exact .inr (.inl ⟨by simp [candStep, hb], hb⟩)
    · exact .inl (by simp [candStep, hb])
  · have hne : p.length ≠ 0 := by simpa [List.length_eq_zero_iff] using hp.1
    by_cases hv : 3 ≤ p.length ∧ p.length = be16 p 1 + 3
    · by_cases hb : b = checksum (p.drop 3)
      · exact .inr (.inr (.inr ⟨by rw [candStep, if_neg hne, if_pos hv, if_pos hb], hp, hv.1, hv.2, hb⟩))
      · exact .inl (by rw [candStep, if_neg hne, if_pos hv, if_neg hb])
    · by_cases hb : b = 0x7E
      · exact .inr (.inl ⟨by rw [candStep, if_neg hne, if_neg hv, if_pos hb, hb], hb⟩)
      · by_cases hr : p.length = 2 ∧ lengthRejected zeroOk (be16 (p ++ [b]) 1) = true
        · exact .inl (by rw [candStep, if_neg hne, if_neg hv, if_neg hb, if_pos hr])
        · refine .inr (.inr (.inl ⟨by rw [candStep, if_neg hne, if_neg hv, if_neg hb, if_neg hr], hp.snoc hb ?_, hp⟩))
          rcases hp.2.2.2 with h2 | ⟨ha, hz, hlt⟩
          · by_cases h1 : p.length + 1 ≤ 2
            · exact .inl h1
            · have h2' : p.length = 2 := by omega
              have := lengthRejected_eq_false.1 (by simpa [h2'] using hr)
              exact .inr ⟨this.1, this.2, by omega⟩
          · by_cases h3 : 3 ≤ p.length
            · rw [be16_append _ h3]
              exact .inr ⟨ha, hz, by omega⟩
            · by_cases h1 : p.length + 1 ≤ 2
              · exact .inl h1
              · have h2' : p.length = 2 := by omega
                have := lengthRejected_eq_false.1 (by simpa [h2'] using hr)
                exact .inr ⟨this.1, this.2, by omega⟩

theorem candStep_candidate {zeroOk : Bool} {p : List Byte} (hp : Candidate zeroOk p) (b : Byte) :
    Candidate zeroOk (candStep zeroOk p b).1 := by
  rcases candStep_cases hp b with h | ⟨h, -⟩ | ⟨h, h', -⟩ | ⟨h, -⟩ <;> rw [h]
  · exact .inl rfl
  · exact .inr (.start _)
  · exact .inr h'
  · exact .inl rfl

theorem candRun_candidate {zeroOk : Bool} {p : List Byte} (hp : Candidate zeroOk p) (bs : List Byte) :
    Candidate zeroOk (candRun zeroOk p bs).2 := by
  induction bs generalizing p with
  | nil => exact hp
  | cons b bs ih => exact ih (candStep_candidate hp b)

/-- A candidate and its checksum byte are a frame. -/
theorem emittable_of_complete {zeroOk : Bool} {p : List Byte} {b : Byte} (hp : PartialCandidate zeroOk p)
    (h3 : 3 ≤ p.length) (hl : p.length = be16 p 1 + 3) (hb : b = checksum (p.drop 3)) :
    Emittable zeroOk (p ++ [b]) := by
  obtain ⟨_, h1, h2, h4⟩ := hp
  have hbe := be16_append [b] h3
  refine ⟨by rwa [byteAt_append_left (by omega)], ⟨by simp [hbe]; omega, ?_⟩, ?_, ?_, ?_⟩
  · have : (p ++ [b]).length - 1 = p.length := by simp
    rw [this, byteAt_append_right (le_refl _), slice]
    simp only [Nat.sub_self, byteAt, List.getD_cons_zero]
    rw [List.drop_append_of_le_length h3, List.take_left' (by simp)]
    exact hb
  · rw [hbe]
    rcases h4 with h | h <;> omega
  · rw [hbe]
    rcases h4 with h | h
    · omega
    · exact h.2.1
  · intro j hj hj'
    simp at hj'
    rw [byteAt_append_left hj']
    exact h2 j hj hj'

theorem candStep_emittable {zeroOk : Bool} {p f : List Byte} {b : Byte} (hp : Candidate zeroOk p)
    (h : (candStep zeroOk p b).2 = some f) : Emittable zeroOk f := by
  rcases candStep_cases hp b with h' | ⟨h', -⟩ | ⟨h', -⟩ | ⟨h', hq, h3, hl, hb⟩ <;> rw [h'] at h <;> simp at h
  exact h ▸ emittable_of_complete hq h3 hl hb

theorem candRun_emittable {zeroOk : Bool} {p : List Byte} (hp : Candidate zeroOk p) (bs : List Byte) :
    ∀ f ∈ (candRun zeroOk p bs).1, Emittable zeroOk f := by
  induction bs generalizing p with
  | nil => simp
  | cons b bs ih =>
    intro f hf
    rw [candRun_cons] at hf
    simp only [List.mem_append, Option.mem_toList] at hf
    rcases hf with hf | hf
    · exact candStep_emittable hp hf
    · exact ih (candStep_candidate hp b) f hf

/-- A partial candidate less its last byte is empty or a partial candidate. -/
theorem PartialCandidate.init {zeroOk : Bool} {q : List Byte} {b : Byte} (h : PartialCandidate zeroOk (q ++ [b])) :
    Candidate zeroOk q := by
  by_cases hq : q = []
  · exact .inl hq
  · obtain ⟨_, h1, h2, h3⟩ := h
    have hp : 0 < q.length := List.length_pos_iff.2 hq
    refine .inr ⟨hq, by rwa [byteAt_append_left hp] at h1, fun j hj hj' => ?_, ?_⟩
    · rw [← byteAt_append_left (q := [b]) hj']; exact h2 j hj (by simp; omega)
    · by_cases h2 : q.length ≤ 2
      · exact .inl h2
      · rw [be16_append _ (by omega)] at h3
        simp at h3
        rcases h3 with h3 | h3
        · omega
        · exact .inr ⟨h3.1, h3.2.1, by omega⟩

/-- Scanning a candidate's own bytes reads it again, from its START (R182). -/
theorem candRun_restart {zeroOk : Bool} {p : List Byte} (hp : Candidate zeroOk p) : candRun zeroOk [] p = ([], p) := by
  induction p using List.reverseRecOn with
  | nil => rfl
  | append_singleton q b ih =>
    have hp' : PartialCandidate zeroOk (q ++ [b]) := by
      rcases hp with h | h
      · simp at h
      · exact h
    have hq := hp'.init
    rw [candRun_append, ih hq]
    simp only [candRun_cons, candRun_nil, List.nil_append, List.append_nil]
    have : candStep zeroOk q b = (q ++ [b], none) := by
      obtain ⟨_, h1, h2, h3⟩ := hp'
      by_cases h0 : q = []
      · subst h0
        have : b = 0x7E := by simpa [byteAt] using h1
        subst this; rfl
      · have hlen : 0 < q.length := List.length_pos_iff.2 h0
        have hb : b ≠ 0x7E := by
          have := h2 q.length (by omega) (by simp)
          rw [byteAt_append_right (le_refl _)] at this
          simpa [byteAt] using this
        have hv : ¬ (3 ≤ q.length ∧ q.length = be16 q 1 + 3) := by
          rintro ⟨h3', hl⟩
          rw [be16_append _ h3'] at h3
          simp at h3; omega
        have hr : ¬ (q.length = 2 ∧ lengthRejected zeroOk (be16 (q ++ [b]) 1) = true) := by
          rintro ⟨h2', hl⟩
          simp [h2'] at h3
          rw [lengthRejected_eq_false.2 ⟨h3.1, h3.2⟩] at hl
          simp at hl
        rw [candStep, if_neg (by omega), if_neg hv, if_neg hb, if_neg hr]
    rw [this]; rfl

theorem candRun_restart_append {zeroOk : Bool} {p : List Byte} (hp : Candidate zeroOk p) (bs : List Byte) :
    candRun zeroOk [] (p ++ bs) = candRun zeroOk p bs := by
  rw [candRun_append, candRun_restart hp]; simp

/-- Garbage before a byte string joins the garbage that opens it. -/
theorem split_prepend (g0 xs : List Byte) (fs : List (List Byte)) (p : List Byte)
    (h : ∃ gs : List (List Byte), gs.length = fs.length ∧ ∃ g : List Byte,
      xs = (List.zipWith (· ++ ·) gs fs).flatten ++ g ++ p) :
    ∃ gs : List (List Byte), gs.length = fs.length ∧ ∃ g : List Byte,
      g0 ++ xs = (List.zipWith (· ++ ·) gs fs).flatten ++ g ++ p := by
  obtain ⟨gs, hl, g, rfl⟩ := h
  rcases fs with _ | ⟨f, fs⟩
  · exact ⟨[], rfl, g0 ++ g, by simp⟩
  · rcases gs with _ | ⟨g1, gs⟩
    · simp at hl
    · exact ⟨(g0 ++ g1) :: gs, hl, g, by simp⟩

/-- Every byte read is accounted for: frames among garbage, then the candidate left. -/
theorem candRun_split {zeroOk : Bool} {p : List Byte} (hp : Candidate zeroOk p) (bs : List Byte) :
    ∃ gs : List (List Byte), gs.length = (candRun zeroOk p bs).1.length ∧ ∃ g : List Byte,
      p ++ bs = (List.zipWith (· ++ ·) gs (candRun zeroOk p bs).1).flatten ++ g ++ (candRun zeroOk p bs).2 := by
  induction bs generalizing p with
  | nil => exact ⟨[], rfl, [], by simp⟩
  | cons b bs ih =>
    have hq := ih (candStep_candidate hp b)
    rw [candRun_cons]
    rcases candStep_cases hp b with h | ⟨h, rfl⟩ | ⟨h, -⟩ | ⟨h, -⟩ <;> rw [h] at hq ⊢
    · simpa using split_prepend (p ++ [b]) _ _ _ hq
    · simpa using split_prepend p _ _ _ hq
    · simpa using hq
    · obtain ⟨gs, hl, g, hg⟩ := hq
      exact ⟨[] :: gs, by simpa using hl, g, by simpa using hg⟩

end Sys2Proof.Machine
end

