-- ==== Sys2Proof/Laws/Ops.lean ====
section
/-! SUPPORT. What the shared operations do to the strings a command sees: the operand string, the result string and the
buffered input. -/

namespace Sys2Proof.Machine

/-- A count that fits is read as itself. -/
theorem countWord_toNat {n : Nat} (h : n < 2 ^ 32) : (countWord n).toNat = n := by
  simp only [countWord, if_pos h, BitVec.toNat_ofNat]
  omega

theorem length_operand {s : State} (h : s.oplen ≤ 128) : s.operand.length = s.oplen := by
  simp [State.operand, h]

theorem length_resultString {s : State} (h : s.rlen ≤ 128) : s.resultString.length = s.rlen := by
  simp [State.resultString, h]

theorem length_buffered {s : State} (h : s.Inv) : s.buffered.length = s.inCount := by
  have h1 := h.ibuf
  have h2 := h.inCount
  simp [State.buffered]
  omega

/-- A byte of the operand string is the byte of OPBUF. -/
theorem byteAt_operand {s : State} (i : Nat) (h : i < s.oplen) (h' : i < 128) : byteAt s.operand i = s.opbuf[i] := by
  simp [byteAt, State.operand, h, h']

/-- Bytes of a buffer after a string stored at its front stay. -/
theorem getElem_storeFront {n : Nat} (buf : Vector Byte n) (s : List Byte) (i : Nat) (h : i < n) (hs : s.length ≤ i) :
    (storeFront buf s)[i] = buf[i] := by
  have h1 := drop_storeList_after buf.toList s 0 (by simp; omega)
  rw [← toList_storeFront] at h1
  have h2 := congrArg (fun l => l[i - s.length]?) h1
  simp only [List.getElem?_drop, Nat.zero_add, Nat.add_sub_cancel' hs] at h2
  have h3 : (storeFront buf s).toList[i]? = some buf[i] := by rw [h2]; simp [h]
  simpa [-toList_storeFront, h] using h3

/-- What a success that writes a string of at most 128 bytes to RBUF does. -/
theorem writes_of_writeResultString {s : State} {bs : List Byte} (h : bs.length ≤ 128) :
    WritesResultString s (s.writeResultString bs).endOk bs := by
  refine ⟨take_storeFront _ _ h, rfl, ?_, fun i h1 h2 => getElem_storeFront _ _ _ h1 h2, rfl⟩
  simp only [State.endOk_result, State.writeResultString_result, BitVec.toNat_ofNat]
  omega

/-- One byte moves the consumed boundary no further than the bytes examined. -/
theorem byte_cb_le (mode : ScanMode) (z : Bool) (span : List Byte) (c : Scan) (b : Byte) (h : c.regs.cb ≤ c.regs.i) :
    (c.byte mode z span b).regs.cb ≤ (c.byte mode z span b).regs.i ∧ (c.byte mode z span b).regs.i ≤ c.regs.i + 1 := by
  unfold Scan.byte Scan.verify ScanRegs.seek ScanRegs.resync ScanRegs.takeLenHi ScanRegs.takeLenLo ScanRegs.takeBody
  unfold ScanRegs.consume
  dsimp only
  split
  all_goals (repeat' split)
  all_goals simp
  all_goals omega

theorem loop_cb_le (mode : ScanMode) (z : Bool) (span bs : List Byte) : ∀ c : Scan, c.regs.cb ≤ c.regs.i →
    (Scan.loop mode z span c bs).regs.cb ≤ (Scan.loop mode z span c bs).regs.i ∧
      (Scan.loop mode z span c bs).regs.i ≤ c.regs.i + bs.length := by
  induction bs with
  | nil => intro c h; simpa [Scan.loop] using h
  | cons b bs ih =>
    intro c h
    have h1 := byte_cb_le mode z span c b h
    rw [loop_cons]
    split
    · have := ih _ h1.1
      simp
      omega
    · simp
      omega

/-- The consumed boundary of a scan lies in the span. -/
theorem scanSpan_cb_le (mode : ScanMode) (z : Bool) (r : ScanRegs) (span : List Byte) :
    (scanSpan mode z r span).regs.cb ≤ span.length := by
  have := loop_cb_le mode z span span ⟨r.start, [], .endOfSpan⟩ (by simp)
  simp at this
  exact le_trans this.1 this.2

theorem runScan_cb_le {s : State} (h : s.Inv) (mode : ScanMode) : (s.runScan mode).regs.cb ≤ s.inCount := by
  rw [← length_buffered h]
  exact scanSpan_cb_le _ _ _ _

/-- What is buffered after a scan is committed: the bytes it did not consume. -/
theorem buffered_commitScan {s : State} (h : s.Inv) (c : Scan) (hc : c.regs.cb ≤ s.inCount) :
    (s.commitScan c).buffered = s.buffered.drop c.regs.cb := by
  have hl := length_buffered h
  have h1 := h.ibuf
  have h2 := h.inCount
  have h3 : (s.buffered.drop c.regs.cb).length = s.inCount - c.regs.cb := by simp [hl]
  simp only [State.buffered, State.commitScan_ibuf, State.commitScan_inCount]
  have := take_storeList_zero s.ibuf (s.buffered.drop c.regs.cb) (by omega)
  rw [h3] at this
  exact this

/-- What is buffered after a string that fits is appended. -/
theorem buffered_appendInput {s : State} (h : s.Inv) (bs : List Byte) (hb : s.inCount + bs.length ≤ s.params.inCap) :
    (s.appendInput bs).buffered = s.buffered ++ bs :=
  take_storeList s.ibuf bs s.inCount (by rw [h.ibuf]; exact hb)

theorem buffered_congr {s t : State} (h1 : s.ibuf = t.ibuf) (h2 : s.inCount = t.inCount) : s.buffered = t.buffered := by
  simp [State.buffered, h1, h2]

/-- Two scans reading the same candidate stay in step, whatever else their registers hold. -/
theorem loop_lockstep (mode : ScanMode) (z : Bool) (span bs : List Byte) : ∀ (p : List Byte) (c c' : Scan),
    Reading span c.regs p bs → Reading span c'.regs p bs → c.frames = c'.frames → c.stop = c'.stop →
      ∃ q rest, Reading span (Scan.loop mode z span c bs).regs q rest ∧
        Reading span (Scan.loop mode z span c' bs).regs q rest ∧
        (Scan.loop mode z span c bs).frames = (Scan.loop mode z span c' bs).frames ∧
        (Scan.loop mode z span c bs).stop = (Scan.loop mode z span c' bs).stop := by
  induction bs with
  | nil => intro p c c' h h' hf hs; exact ⟨p, [], h, h', hf, hs⟩
  | cons b bs ih =>
    intro p c c' h h' hf hs
    obtain ⟨r, hr, hb⟩ := byte_sim mode z h
    obtain ⟨r', hr', hb'⟩ := byte_sim mode z h'
    rw [loop_cons, loop_cons, hb, hb']
    rcases (candStep z p b).2 with _ | f
    · simp only [hs]
      split_ifs
      · exact ih _ _ _ hr hr' hf rfl
      · exact ⟨_, _, hr, hr', hf, rfl⟩
    · cases mode with
      | first =>
        rw [if_neg (by simp), if_neg (by simp)]
        exact ⟨_, _, hr, hr', by simp [hf], rfl⟩
      | all room =>
        simp only [hf]
        by_cases hroom : c'.frames.length = room
        · simp only [hroom, if_true, reduceCtorEq, if_false]
          exact ⟨p, b :: bs, h, h', by simp⟩
        · simp only [hroom, if_false, hs]
          split_ifs
          · exact ih _ _ _ hr hr' rfl rfl
          · exact ⟨_, _, hr, hr', rfl, rfl⟩

/-- What a scan finds does not depend on the registers it began with (10_state.md R36). -/
theorem scanSpan_congr (mode : ScanMode) (z : Bool) (r r' : ScanRegs) (span : List Byte) :
    (scanSpan mode z r span).frames = (scanSpan mode z r' span).frames ∧
      (scanSpan mode z r span).stop = (scanSpan mode z r' span).stop ∧
      (scanSpan mode z r span).regs.cb = (scanSpan mode z r' span).regs.cb := by
  obtain ⟨q, rest, h, h', hf, hs⟩ := loop_lockstep mode z span span [] ⟨r.start, [], .endOfSpan⟩
    ⟨r'.start, [], .endOfSpan⟩ (reading_start r span) (reading_start r' span) rfl rfl
  refine ⟨hf, hs, ?_⟩
  have e := congrArg List.length (h.split.trans h'.split.symm)
  have h1 := scanSpan_cb_le mode z r span
  have h2 := scanSpan_cb_le mode z r' span
  simp only [List.length_drop] at e
  change span.length - (scanSpan mode z r span).regs.cb = span.length - (scanSpan mode z r' span).regs.cb at e
  omega
theorem length_candRun (z : Bool) (p bs : List Byte) : (candRun z p bs).1.length ≤ bs.length := by
  induction bs generalizing p with
  | nil => simp
  | cons b bs ih =>
    rw [candRun_cons]
    have h1 := ih (candStep z p b).1
    have h2 : (candStep z p b).2.toList.length ≤ 1 := by cases (candStep z p b).2 <;> simp
    simp
    omega

/-- The frames of a span, without the scan's registers. -/
theorem framesIn_eq (z : Bool) (span : List Byte) : framesIn z span = (candRun z [] span).1 :=
  (scanSpan_all z _ span _ (le_trans (length_candRun z [] span) (Nat.le_succ _))).2.1

/-- The bytes a scan of a span leaves, without the scan's registers. -/
theorem leftIn_eq (z : Bool) (span : List Byte) : leftIn z span = (candRun z [] span).2 := by
  have := (scanSpan_all z ScanRegs.reset span (span.length + 1)
    (le_trans (length_candRun z [] span) (Nat.le_succ _))).2.2.split
  simpa [leftIn] using this

end Sys2Proof.Machine
end

