-- ==== Sys2Proof/Laws/PerInstr.lean ====
section
/-! SUPPORT. Statements about every command as syntax, one lemma a constructor (LAWS.json). -/

namespace Sys2Proof.Laws.OpcodeRow

/-- The opcode map of 30_encoding.md R74, read at a command's own opcode and operands, gives that command, in a format
whose reserved fields the command's operands leave zero (R72). -/
def Statement (i : Instr) : Prop :=
  ∃ f, opcodeMap i.opcode i.aOperand i.immOperand = some (f, i) ∧ f.reservedZero i.aOperand i.immOperand = true

theorem nop : Statement .nop := ⟨.f0, rfl, rfl⟩
theorem opbClr : Statement .opbClr := ⟨.f0, rfl, rfl⟩
theorem opbPush (a : Byte) : Statement (.opbPush a) := ⟨.fa, rfl, rfl⟩
theorem opbFromRbuf : Statement .opbFromRbuf := ⟨.f0, rfl, rfl⟩
theorem destSet (index : Imm) (a : Byte) : Statement (.destSet index a) := ⟨.fai, rfl, rfl⟩
theorem csumClr : Statement .csumClr := ⟨.f0, rfl, rfl⟩
theorem csumAdd (a : Byte) : Statement (.csumAdd a) := ⟨.fa, rfl, rfl⟩
theorem csumRead : Statement .csumRead := ⟨.f0, rfl, rfl⟩
theorem csumBuf : Statement .csumBuf := ⟨.f0, rfl, rfl⟩
theorem fvCheck (f : Byte) : Statement (.fvCheck f) := ⟨.fa, rfl, rfl⟩
theorem encAt (f : Byte) : Statement (.encAt f) := ⟨.fa, rfl, rfl⟩
theorem encTx : Statement .encTx := ⟨.f0, rfl, rfl⟩
theorem inPush (a : Byte) : Statement (.inPush a) := ⟨.fa, rfl, rfl⟩
theorem inAppend : Statement .inAppend := ⟨.f0, rfl, rfl⟩
theorem parse : Statement .parse := ⟨.f0, rfl, rfl⟩
theorem extract : Statement .extract := ⟨.f0, rfl, rfl⟩
theorem outPop : Statement .outPop := ⟨.f0, rfl, rfl⟩
theorem fiSize : Statement .fiSize := ⟨.f0, rfl, rfl⟩
theorem fiType : Statement .fiType := ⟨.f0, rfl, rfl⟩
theorem fiAtvsz : Statement .fiAtvsz := ⟨.f0, rfl, rfl⟩
theorem fiAtval : Statement .fiAtval := ⟨.f0, rfl, rfl⟩
theorem fiAtcmd : Statement .fiAtcmd := ⟨.f0, rfl, rfl⟩
theorem fiAtstat : Statement .fiAtstat := ⟨.f0, rfl, rfl⟩
theorem fiRxpay : Statement .fiRxpay := ⟨.f0, rfl, rfl⟩
theorem pktCount (n : Imm) : Statement (.pktCount n) := ⟨.fi, rfl, rfl⟩

end Sys2Proof.Laws.OpcodeRow
end

