-- ==== Sys2Proof/Tests/Slice0.lean ====
section
/-! SUPPORT. The model's own tests, and a witness for every statement that has hypotheses. Expected values are those of
spec/95_test_vectors.md (its section is named at each group) or worked by hand from the rule named. -/

namespace Sys2Proof.Tests

open Sys2Proof.Machine

set_option Elab.async false

/-! ## Helpers -/

/-- The reset state with the parameters of 95_test_vectors.md: IN_CAP = 256, OUT_DEPTH = 4, ZERO_LEN_ACCEPT = true. -/
def base : State := State.resetWith ⟨256, 4, true⟩

/-- What f reads in the state a command ends in. -/
def after {α : Type} (i : Instr) (s : State) (f : State → α) : Option α :=
  match exec i s with
  | .next t => some (f t)
  | .fault _ => none
  | .refused _ => none

/-- What f reads in the state a step ends in. -/
def afterStep {α : Type} (s : State) (f : State → α) : Option α :=
  match step s with
  | .next t => some (f t)
  | .fault _ => none
  | .refused _ => none

/-- OPBUF[0..OPLEN) = bs. -/
def operandIs (bs : List Byte) : State := base.writeOperand bs

/-- IBUF[0..IN_COUNT) = bs. -/
def inputIs (bs : List Byte) : State := base.appendInput bs

/-- RBUF[0..RLEN) = bs. -/
def resultIs (bs : List Byte) : State := base.writeResultString bs

/-- The E2E 1 frame. -/
def frame1 : List Byte := [0x7E, 0x00, 0x05, 0x08, 0x01, 0x49, 0x44, 0x0A, 0x5F]

/-- The E2E 3 frame. -/
def frame3 : List Byte := [0x7E, 0x00, 0x05, 0x88, 0x01, 0x4E, 0x49, 0x00, 0xDF]

/-- The CH response of 95_test_vectors.md section 1. -/
def frameCh : List Byte := [0x7E, 0x00, 0x07, 0x88, 0x01, 0x43, 0x48, 0x00, 0x0C, 0x00, 0xDF]

/-- The Receive Packet "hi". -/
def frameRx : List Byte :=
  [0x7E, 0x00, 0x0E, 0x90, 0, 0, 0, 0, 0, 0, 0, 0, 0xFF, 0xFE, 0x01, 0x68, 0x69, 0xA0]

/-- Emittable as a computation. -/
def emittableCheck (z : Bool) (f : List Byte) : Bool :=
  decide (byteAt f 0 = 0x7E ∧ f.length = be16 f 1 + 4 ∧ byteAt f (f.length - 1) = checksum (slice f 3 (f.length - 1)) ∧
    be16 f 1 ≤ 124 ∧ (be16 f 1 = 0 → z = true)) &&
  decide (∀ j < f.length, 1 ≤ j → j + 1 < f.length → byteAt f j ≠ 0x7E)

theorem emittable_of_check {z : Bool} {f : List Byte} (h : emittableCheck z f = true) : Emittable z f := by
  simp only [emittableCheck, Bool.and_eq_true, decide_eq_true_eq] at h
  exact ⟨h.1.1, ⟨h.1.2.1, h.1.2.2.1⟩, h.1.2.2.2.1, h.1.2.2.2.2, fun j h1 h2 => h.2 j (by omega) h1 h2⟩

/-- The invariant as a computation, for states whose STATUS is OK. -/
def invCheck (s : State) : Bool :=
  decide (s.params.Legal ∧ s.status = 0x00 ∧ s.oplen ≤ 128 ∧ s.rlen ≤ 128 ∧ s.ibuf.length = s.params.inCap ∧
    s.inCount ≤ s.params.inCap ∧ s.lastConsumed ≤ s.params.inCap ∧ s.ofifo.length ≤ s.params.outDepth ∧
    s.scan.fsm = .seekStart) &&
  s.ofifo.all (emittableCheck s.params.zeroLenAccept)

theorem inv_of_check {s : State} (h : invCheck s = true) : s.Inv := by
  simp only [invCheck, Bool.and_eq_true, decide_eq_true_eq, List.all_eq_true] at h
  obtain ⟨⟨a, b, c, d, e, f, g, i, j⟩, k⟩ := h
  exact ⟨a, ⟨.ok, b⟩, c, d, e, f, g, i, fun x hx => emittable_of_check (k x hx), j⟩

/-! ## Well-formedness (30_encoding.md R71): one ill-formed command for each check -/

theorem test_destSet_index_8_illFormed : (Instr.destSet 8 0x13).wellFormed = false := by decide
theorem test_fvCheck_12_illFormed : (Instr.fvCheck 12).wellFormed = false := by decide
theorem test_encAt_12_illFormed : (Instr.encAt 12).wellFormed = false := by decide
theorem test_last_operands_wellFormed :
    (Instr.destSet 7 0xFF).wellFormed = true ∧ (Instr.fvCheck 11).wellFormed = true ∧
      (Instr.encAt 11).wellFormed = true := by decide

/-! ## Decoding: a word of each command written from 30_encoding.md R70, R72 and R74 (IMM, A, OP), and illegal words of
95_test_vectors.md 2.1 -/

theorem test_decode_operand_port :
    decode 0b0000000000000000_00000000_00000000 = .ok .nop ∧
    decode 0b0000000000000000_00000000_00000001 = .ok .opbClr ∧
    decode 0b0000000000000000_10100101_00000010 = .ok (.opbPush 0xA5) ∧
    decode 0b0000000000000000_00000000_00000011 = .ok .opbFromRbuf ∧
    decode 0b0000000000000101_10100101_00000100 = .ok (.destSet 5 0xA5) := by decide

theorem test_decode_checksum :
    decode 0b0000000000000000_00000000_00010000 = .ok .csumClr ∧
    decode 0b0000000000000000_10000001_00010001 = .ok (.csumAdd 0x81) ∧
    decode 0b0000000000000000_00000000_00010010 = .ok .csumRead ∧
    decode 0b0000000000000000_00000000_00010011 = .ok .csumBuf := by decide

theorem test_decode_encoder :
    decode 0b0000000000000000_00001011_00100000 = .ok (.fvCheck 11) ∧
    decode 0b0000000000000000_00000010_00100001 = .ok (.encAt 2) ∧
    decode 0b0000000000000000_00000000_00100010 = .ok .encTx := by decide

theorem test_decode_stream :
    decode 0b0000000000000000_01111110_00110000 = .ok (.inPush 0x7E) ∧
    decode 0b0000000000000000_00000000_00110001 = .ok .inAppend ∧
    decode 0b0000000000000000_00000000_00110010 = .ok .parse ∧
    decode 0b0000000000000000_00000000_00110011 = .ok .extract ∧
    decode 0b0000000000000000_00000000_00110100 = .ok .outPop := by decide

theorem test_decode_inspector :
    decode 0b0000000000000000_00000000_01000000 = .ok .fiSize ∧
    decode 0b0000000000000000_00000000_01000001 = .ok .fiType ∧
    decode 0b0000000000000000_00000000_01000010 = .ok .fiAtvsz ∧
    decode 0b0000000000000000_00000000_01000011 = .ok .fiAtval ∧
    decode 0b0000000000000000_00000000_01000100 = .ok .fiAtcmd ∧
    decode 0b0000000000000000_00000000_01000101 = .ok .fiAtstat ∧
    decode 0b0000000000000000_00000000_01000110 = .ok .fiRxpay ∧
    decode 0b1000000000000001_00000000_01000111 = .ok (.pktCount 0x8001) := by decide

theorem test_decode_illegal :
    decode 0x000000FF = .error .undefinedOpcode ∧ decode 0xFFFFFFFF = .error .undefinedOpcode ∧
    decode 0x00000048 = .error .undefinedOpcode ∧ decode 0x00000100 = .error .reservedFieldNonZero ∧
    decode 0x00010000 = .error .reservedFieldNonZero ∧ decode 0x00000147 = .error .reservedFieldNonZero ∧
    decode 0x0000FF21 = .error .operandOutOfRange ∧ decode 0xFFFF0004 = .error .operandOutOfRange := by decide

/-- A FV_CHECK with a non-zero IMM and a field id out of range is reported by the reserved field (60_exceptions.md
R256). -/
theorem test_decode_illegal_order : decode 0x00010C20 = .error .reservedFieldNonZero := by decide

theorem test_decodeTableWord :
    decodeTableWord 32 0x00070104 = some (.destSet 7 0x01) ∧ decodeTableWord 16 0x7E30 = some (.inPush 0x7E) ∧
    decodeTableWord 32 0x00000005 = none := by decide

/-! ## Operand port (95_test_vectors.md 2.2) -/

theorem test_nop : after .nop { base with result := 0x1234, status := 0x05 } (fun t => (t.result, t.status)) =
    some (0x1234, 0x00) := by decide +kernel
theorem test_opbClr : after .opbClr { base with oplen := 128 } State.oplen = some 0 := by decide +kernel
theorem test_opbPush_last : after (.opbPush 0x55) { base with oplen := 127 } (fun t => (t.opbuf[127], t.oplen)) =
    some (0x55, 128) := by decide +kernel
theorem test_opbPush_full : after (.opbPush 0x01) { base with oplen := 128 } (fun t => (t.oplen, t.status)) =
    some (128, 0x04) := by decide +kernel
theorem test_opbFromRbuf : after .opbFromRbuf (resultIs frame1) State.operand = some frame1 := by decide +kernel
theorem test_opbFromRbuf_empty : after .opbFromRbuf { base with oplen := 5 } State.oplen = some 0 := by decide +kernel
theorem test_destSet : after (.destSet 0 0x13) base (fun t => t.dest.toList) = some [0x13, 0, 0, 0, 0, 0, 0, 0] := by
  decide +kernel

/-! ## Checksum unit (95_test_vectors.md 2.3) -/

theorem test_csumClr : after .csumClr { base with acc := 0x37 } State.acc = some 0x00 := by decide +kernel
theorem test_csumAdd_wraps : after (.csumAdd 0x01) { base with acc := 0xFF } State.acc = some 0x00 := by decide +kernel
theorem test_csumRead : after .csumRead { base with acc := 0xA0 } (fun t => (t.result, t.acc)) = some (0x5F, 0xA0) := by
  decide +kernel
theorem test_csumBuf : after .csumBuf { operandIs [0x88, 0x01, 0x4E, 0x49, 0x00] with acc := 0x42 }
    (fun t => (t.result, t.acc)) = some (0xDF, 0x42) := by decide +kernel
theorem test_csumBuf_128 : after .csumBuf (operandIs (List.replicate 128 0xFF)) State.result = some 0x7F := by
  decide +kernel

/-! ## Field validator and encoder (95_test_vectors.md 2.4) -/

theorem test_fvCheck_ch : [[], [0x0A], [0x0B], [0x1A], [0x1B], [0x0B, 0x00], [0x00, 0x0B], [0x0B, 0, 0, 0],
    [0x0B, 0, 0, 0, 0]].map (fun v => after (.fvCheck 1) (operandIs v) State.result) =
    [some 0, some 0, some 1, some 1, some 0, some 1, some 0, some 1, some 0] := by decide +kernel
theorem test_fvCheck_ni : [[], [0x7F], [0x80], List.replicate 20 0x41, List.replicate 21 0x41].map
    (fun v => after (.fvCheck 2) (operandIs v) State.result) = [some 1, some 1, some 0, some 1, some 0] := by
  decide +kernel
theorem test_encAt_ch : after (.encAt 1) (operandIs [0x1A, 0x00]) (fun t => (t.resultString, t.result)) =
    some ([0x7E, 0x00, 0x06, 0x08, 0x01, 0x43, 0x48, 0x1A, 0x00, 0x51], 10) := by decide +kernel
theorem test_encAt_rejects : after (.encAt 1) { operandIs [0x0A] with rlen := 3 } (fun t => (t.status, t.rlen)) =
    some (0x01, 3) := by decide +kernel
theorem test_encTx : after .encTx { operandIs [0x68, 0x69] with dest := #v[0x00, 0x13, 0xA2, 0x00, 0x40, 0x0A, 0x01, 0x27] }
    State.resultString = some [0x7E, 0x00, 0x10, 0x10, 0x01, 0x00, 0x13, 0xA2, 0x00, 0x40, 0x0A, 0x01, 0x27, 0xFF, 0xFE,
      0x00, 0xC0, 0x68, 0x69, 0x39] := by decide +kernel
theorem test_encTx_too_large : after .encTx (operandIs (List.replicate 66 0x41)) State.status = some 0x02 := by
  decide +kernel

/-! ## Stream parser and extractor (95_test_vectors.md 2.5, 2.6) -/

theorem test_inPush_full : after (.inPush 0x00) { base with inCount := 256 } (fun t => (t.inCount, t.status)) =
    some (256, 0x04) := by decide +kernel
theorem test_inPush_last : after (.inPush 0x7E) { base with inCount := 255 } (fun t => (t.ibuf[255]?, t.inCount)) =
    some (some 0x7E, 256) := by decide +kernel
theorem test_inAppend_fits : after .inAppend { operandIs [1, 2, 3, 4, 5, 6] with inCount := 250 }
    (fun t => (t.inCount, t.buffered.drop 250)) = some (256, [1, 2, 3, 4, 5, 6]) := by decide +kernel
theorem test_inAppend_full : after .inAppend { operandIs [1, 2, 3, 4, 5, 6] with inCount := 251 }
    (fun t => (t.inCount, t.status)) = some (251, 0x04) := by decide +kernel
theorem test_parse_mismatching_checksum_7E : after .parse (inputIs (frame3.take 8 ++ frame3)) (fun t =>
    (t.result, t.ofifo, t.lastConsumed, t.inCount)) = some (0, [], 17, 0) := by decide +kernel
theorem test_parse_room_1 : after .parse { inputIs ([0x11] ++ frame3 ++ frame1 ++ [0x22]) with params := ⟨256, 1, true⟩ }
    (fun t => (t.result, t.ofifo, t.lastConsumed, t.buffered, t.status)) =
      some (1, [frame3], 10, frame1 ++ [0x22], 0x04) := by decide +kernel
theorem test_extract : after .extract (inputIs ([0x11, 0x22] ++ frame3 ++ [0x33])) (fun t =>
    (t.resultString, t.result, t.lastConsumed, t.buffered)) = some (frame3, 9, 11, [0x33]) := by decide +kernel
theorem test_extract_notFound : after .extract { inputIs [0x11, 0x22, 0x7E, 0x00, 0x05, 0x88] with rlen := 9 } (fun t =>
    (t.status, t.rlen, t.lastConsumed, t.buffered)) = some (0x03, 9, 2, [0x7E, 0x00, 0x05, 0x88]) := by decide +kernel
theorem test_outPop : after .outPop { base with ofifo := [frame3, frame1] } (fun t =>
    (t.resultString, t.result, t.ofifo)) = some (frame3, 9, [frame1]) := by decide +kernel
theorem test_outPop_empty : after .outPop { base with rlen := 4 } (fun t => (t.status, t.rlen)) = some (0x05, 4) := by
  decide +kernel

/-- The rows of the scan table of 95_test_vectors.md 2.5: re-sync in each state, LENGTH 125, 0x0100 and 124, a checksum
byte 0x7E, a 0x7E in the value, a wrong checksum. -/
theorem test_scan_rows : [[0x7E, 0x00, 0x05, 0x88] ++ frame3, [0x7E] ++ frame3, [0x7E, 0x00] ++ frame3,
    [0x7E, 0x00, 0x7D, 0x01, 0x02] ++ frame3, [0x7E, 0x01, 0x00] ++ frame3,
    [0x7E, 0x00, 0x7C] ++ List.replicate 124 0x01 ++ [0x83], [0x7E, 0x00, 0x05, 0x08, 0x01, 0x49, 0x44, 0xEB, 0x7E],
    [0x7E, 0x00, 0x06, 0x08, 0x01, 0x49, 0x44, 0x7E, 0x01, 0xEA], frame3.take 8 ++ [0xDE]].map
      (fun s => ((framesIn true s).map List.length, leftIn true s)) =
    [([9], []), ([9], []), ([9], []), ([9], []), ([9], []), ([128], []), ([9], []), ([], []), ([], [])] := by
  decide +kernel
theorem test_scan_zero_length : framesIn true [0x7E, 0x00, 0x00, 0xFF] = [[0x7E, 0x00, 0x00, 0xFF]] ∧
    framesIn false [0x7E, 0x00, 0x00, 0xFF] = [] ∧ framesIn true [0x7E, 0x00, 0x00, 0xFE] = [] := by decide +kernel

/-! ## Frame inspector (95_test_vectors.md 2.7) -/

theorem test_fiSize : after .fiSize (operandIs frameCh) State.result = some 0x0B := by decide +kernel
theorem test_fiSize_range : after .fiSize (operandIs [0x7E, 0x00]) State.status = some 0x06 := by decide +kernel
theorem test_fiType : after .fiType (operandIs frame3) State.result = some 0x88 := by decide +kernel
theorem test_fiType_range : after .fiType (operandIs [0x7E, 0x00, 0x05]) State.status = some 0x06 := by decide +kernel
theorem test_fiAtvsz : after .fiAtvsz (operandIs frameCh) State.result = some 2 := by decide +kernel
theorem test_fiAtvsz_range : after .fiAtvsz (operandIs [0x7E, 0x00, 0x00, 0xFF]) State.status = some 0x06 := by
  decide +kernel
theorem test_fiAtval : after .fiAtval (operandIs frameCh) (fun t => (t.resultString, t.result)) =
    some ([0x0C, 0x00], 2) := by decide +kernel
theorem test_fiAtval_range : after .fiAtval (operandIs (frame3.take 7)) State.status = some 0x06 := by decide +kernel
theorem test_fiAtcmd : after .fiAtcmd (operandIs frame3) State.result = some 2 := by decide +kernel
theorem test_fiAtcmd_lowerCase : after .fiAtcmd (operandIs [0x7E, 0x00, 0x05, 0x88, 0x01, 0x6E, 0x69, 0x00, 0x9F])
    State.result = some 0xFF := by decide +kernel
theorem test_fiAtstat : after .fiAtstat (operandIs frame1) State.result = some 0x0A := by decide +kernel
theorem test_fiAtstat_range : after .fiAtstat (operandIs (frame3.take 7)) State.status = some 0x06 := by decide +kernel
theorem test_fiRxpay : after .fiRxpay (operandIs frameRx) (fun t => (t.resultString, t.result)) =
    some ([0x68, 0x69], 2) := by decide +kernel
theorem test_fiRxpay_range : after .fiRxpay (operandIs (frameRx.take 10)) State.status = some 0x06 := by decide +kernel
theorem test_pktCount : after (.pktCount 65535) base State.result = some 1009 := by decide +kernel
theorem test_pktCount_boundary : (after (.pktCount 65) base State.result, after (.pktCount 66) base State.result) =
    (some 1, some 2) := by decide +kernel

/-! ## The host port and the step (20_memory.md R51 to R55, 30_encoding.md R71, 70_reset_and_hazards.md R280) -/

theorem test_step_runs_the_word : afterStep (base.withFetchWord 32 0x00070104) (fun t => (t.dest[7], t.pending)) =
    some (0x01, []) := by decide +kernel
theorem test_step_illegal_word : afterStep ({ base with result := 7 }.withFetchWord 32 0x00000C21) (fun t =>
    (t.status, t.result)) = some (0x07, 7) := by decide +kernel
theorem test_step_read_bytes : afterStep { operandIs [0xAA, 0xBB] with pending := [.read 0x204 4] } State.hostData =
    some [0xBB] := by decide +kernel
theorem test_step_reset : afterStep { operandIs [0xAA] with acc := 9, pending := [.reset] } (fun t =>
    (t.oplen, t.acc, t.pending)) = some (0, 0, []) := by decide +kernel

/-! ## Witnesses: states and operands that meet the hypotheses of each statement, at the boundaries of each clause -/

/-- `base` with one host access pending. -/
def waiting (a : HostAccess) : State := { base with pending := [a] }

theorem witness_DecodeInvertsEncode : (Instr.destSet 7 0xFF).wellFormed = true ∧ (Instr.encAt 11).wellFormed = true ∧
    (Instr.pktCount 0xFFFF).wellFormed = true := by decide

theorem witness_DecodedWordIsTheCommandsWord : decode 0x0007FF04 = .ok (.destSet 7 0xFF) := by decide

theorem witness_IllegalWordsRaiseIllegalOnly :
    (waiting (.write 0x000 4 0x00000005)).pending = .write 0x000 4 0x00000005 :: [] ∧
    IllegalWord 0x00000005 ∧ IllegalWord 0x0000000F ∧ IllegalWord 0x00000014 ∧ IllegalWord 0x0000001F ∧
    IllegalWord 0x00000023 ∧ IllegalWord 0x0000002F ∧ IllegalWord 0x00000035 ∧ IllegalWord 0x0000003F ∧
    IllegalWord 0x00000048 ∧ IllegalWord 0x000000FF ∧ IllegalWord 0x00000100 ∧ IllegalWord 0x00010000 ∧
    IllegalWord 0x00010002 ∧ IllegalWord 0x00000147 ∧ IllegalWord 0x00000C20 ∧ IllegalWord 0x00000C21 ∧
    IllegalWord 0x00080004 ∧ Instr.opbClr.wellFormed = true ∧ Instr.opbClr.opcode ≠ 0x00 := by
  refine ⟨rfl, ?_, ?_, ?_, ?_, ?_, ?_, ?_, ?_, ?_, ?_, ?_, ?_, ?_, ?_, ?_, ?_, ?_, rfl, by decide⟩ <;>
    simp [IllegalWord]

theorem witness_StepRunsTheDecodedCommand :
    (waiting (.write 0x000 4 0x00000A02)).pending = .write 0x000 4 0x00000A02 :: [] ∧
      decode 0x00000A02 = .ok (.opbPush 0x0A) := by decide

theorem witness_StepWithNothingPendingIsIdle : base.pending = [] ∧ State.reset.pending = [] := ⟨rfl, rfl⟩

theorem witness_RegisterMapReadsTheRegisters : base.Inv ∧ base.params.inCap < 2 ^ 32 ∧ base.params.outDepth < 2 ^ 32 ∧
    (0x024 < 0x1000 ∧ 0x024 % 4 = 0 ∧ 0x020 < 0x024) ∧ (0xFFC < 0x1000 ∧ 0xFFC % 4 = 0) :=
  ⟨inv_of_check (by decide +kernel), by decide, by decide, by decide, by decide⟩

theorem witness_HostReadReturnsTheMapAndChangesNothing :
    (waiting (.read 0xFFC 4)).pending = .read 0xFFC 4 :: [] ∧ 0xFFC < 0x1000 ∧ 0xFFC % 4 = 0 := by decide

theorem witness_OnlyAdmittedAccessesHaveAStep :
    (∀ a ∈ ([.write 0x004 4 0, .write 0x000 2 0, .read 0x1000 4, .read 0x002 4, .read 0x000 1] : List HostAccess),
      (waiting a).pending = [a] ∧ step (waiting a) = .refused (.accessNotAdmitted a)) ∧
    (∀ a ∈ ([.write 0x000 4 0, .read 0x000 4, .read 0xFFC 4, .reset] : List HostAccess), (waiting a).pending = [a]) := by
  refine ⟨?_, ?_⟩ <;> intro a ha <;> simp only [List.mem_cons, List.not_mem_nil, or_false] at ha <;>
    rcases ha with rfl | rfl | rfl | rfl | rfl <;> first | exact ⟨rfl, rfl⟩ | rfl

theorem witness_ResetSetsEveryRegister : { waiting .reset with acc := 0xFF, oplen := 128 }.pending = .reset :: [] := rfl

theorem witness_NopWritesStatusOnly : (0x00000100 : Word).toNat % 256 = 0x00 ∧ (0x00000100 : Word) ≠ 0 := by decide

theorem witness_OpbPushAppendsOneByteOrRaisesFull : { base with oplen := 128 }.oplen = 128 ∧
    { base with oplen := 127 }.oplen < 128 ∧ base.oplen < 128 := by decide

theorem witness_OpbFromRbufCopiesTheResultString : { base with rlen := 128 }.rlen ≤ 128 ∧ base.rlen ≤ 127 := by decide

theorem witness_DestSetWritesOneAddressByte : (7 : Imm).toNat < 8 ∧ 8 ≤ (8 : Imm).toNat ∧ 8 ≤ (0xFFFF : Imm).toNat := by
  decide

theorem witness_PseudoInstructionsLoadTheirBytes :
    (List.replicate 128 (0x7E : Byte)).length ≤ 128 ∧ (List.replicate 8 (0xFF : Byte)).length = 8 ∧
    (let s := { base with inCount := 128 };
      s.Inv ∧ s.inCount + (List.replicate 128 (0x7E : Byte)).length ≤ s.params.inCap) :=
  ⟨by decide +kernel, by decide, inv_of_check (by decide +kernel), by decide +kernel⟩

theorem witness_ChecksumFunctionAndItsLaws : ([0x01, 0x02] : List Byte).Perm [0x02, 0x01] ∧
    (([0xFF, 0x02] : List Byte).map BitVec.toNat).sum % 256 = (([0x01] : List Byte).map BitVec.toNat).sum % 256 := by
  decide

theorem witness_FvCheckReportsValidity : (11 : Byte).toNat < 12 ∧ 12 ≤ (12 : Byte).toNat := by decide

/-- A value for the ten fields whose rules the spec gives; whether SN, SO, ST, SP or WH has one is a parameter. -/
theorem witness_EncAtBuildsTheFrameOrRejects :
    (11 : Byte).toNat < 12 ∧ 12 ≤ (12 : Byte).toNat ∧ (operandIs [0x1A]).oplen ≤ 128 ∧
    valid .CH (operandIs [0x1A]).operand = true ∧ valid .ID (operandIs [0x7E, 0x01]).operand = true ∧
    valid .NI (operandIs (List.replicate 20 0x7F)).operand = true ∧ valid .SM base.operand = true ∧
    valid .SH base.operand = true ∧ valid .SL base.operand = true ∧ valid .WR base.operand = true ∧
    valid .CH (operandIs [0x0A]).operand = false ∧ valid .SN (operandIs (List.replicate 121 0)).operand = false := by
  decide +kernel

theorem witness_EncTxBuildsTheFrameOrRejects : 65 < { base with oplen := 66 }.oplen ∧ { base with oplen := 65 }.oplen ≤ 65 ∧
    base.oplen ≤ 65 := by decide

theorem witness_EncodedFramesAreWellFormedAndRoundTrip :
    (∃ t, (operandIs [0x1A]).Inv ∧ fieldOfId 1 = some .CH ∧ exec (.encAt 1) (operandIs [0x1A]) = .next t ∧
      t.status = 0x00) ∧
    (∃ t, (operandIs (List.replicate 65 0x41)).Inv ∧ exec .encTx (operandIs (List.replicate 65 0x41)) = .next t ∧
      t.status = 0x00) :=
  ⟨⟨_, inv_of_check (by decide +kernel), by decide, rfl, by decide +kernel⟩,
    ⟨_, inv_of_check (by decide +kernel), rfl, by decide +kernel⟩⟩

theorem witness_InPushAppendsOneByteOrRaisesFull :
    (let s := { base with inCount := 256 }; s.Inv ∧ s.inCount = s.params.inCap) ∧
    (let s := { base with inCount := 255 }; s.Inv ∧ s.inCount < s.params.inCap) :=
  ⟨⟨inv_of_check (by decide +kernel), rfl⟩, inv_of_check (by decide +kernel), by decide⟩

theorem witness_InAppendStoresAllOrNothing :
    (let s := { base with inCount := 251, oplen := 6 }; s.Inv ∧ s.params.inCap < s.inCount + s.oplen) ∧
    (let s := { base with inCount := 250, oplen := 6 }; s.Inv ∧ s.inCount + s.oplen ≤ s.params.inCap) :=
  ⟨⟨inv_of_check (by decide +kernel), by decide⟩, inv_of_check (by decide +kernel), by decide⟩

/-- A scan that stops with OFIFO full and one that does not. -/
theorem witness_ParseQueuesFramesAndCompacts :
    (let s := { inputIs frame3 with ofifo := List.replicate 4 frame1 };
      s.Inv ∧ (s.runScan (.all (s.params.outDepth - s.ofifo.length))).stop = .outFull) ∧
    (let s := inputIs frame3;
      s.Inv ∧ (s.runScan (.all (s.params.outDepth - s.ofifo.length))).frames.length < 2 ^ 32) :=
  ⟨⟨inv_of_check (by decide +kernel), by decide +kernel⟩, inv_of_check (by decide +kernel), by decide +kernel⟩

theorem witness_OutPopMovesTheOldestFrame : (base.Inv ∧ base.ofifo = []) ∧
    (let s := { base with ofifo := [frame3, frame1] }; s.Inv ∧ s.ofifo = frame3 :: [frame1]) :=
  ⟨⟨inv_of_check (by decide +kernel), rfl⟩, inv_of_check (by decide +kernel), rfl⟩

theorem witness_ExtractTakesTheFirstFrameAndCompacts :
    ((inputIs frame3).Inv ∧ ((inputIs frame3).runScan .first).stop = .found) ∧
    ((inputIs [0x11, 0x7E]).Inv ∧ ((inputIs [0x11, 0x7E]).runScan .first).stop ≠ .found) :=
  ⟨⟨inv_of_check (by decide +kernel), by decide +kernel⟩, inv_of_check (by decide +kernel), by decide +kernel⟩

/-- A scan part way through a candidate, one between candidates, and one ended by each stop reason. -/
theorem witness_ScanInvariantsAndEndings :
    (let c := Scan.loop .first true frame3 ⟨ScanRegs.reset.start, [], .endOfSpan⟩ (frame3.take 5);
      frame3 = frame3.take 5 ++ frame3.drop 5 ∧ c.stop = .endOfSpan ∧ c.regs.fsm ≠ .seekStart) ∧
    (let c := scanSpan (.all 1) true ScanRegs.reset frame3;
      c.stop = .endOfSpan ∧ c.regs.fsm = .seekStart ∧ c.frames = [frame3]) ∧
    (let c := scanSpan (.all 1) true ScanRegs.reset (frame3.take 8); c.stop = .endOfSpan ∧ c.regs.fsm ≠ .seekStart) ∧
    (scanSpan .first true ScanRegs.reset frame3).stop = .found ∧
    (scanSpan (.all 0) true ScanRegs.reset frame3).stop = .outFull := by decide +kernel

theorem partial_of_check {z : Bool} {p : List Byte} (h : (p ≠ [] ∧ byteAt p 0 = 0x7E ∧
    (∀ j < p.length, 1 ≤ j → byteAt p j ≠ 0x7E) ∧
    (p.length ≤ 2 ∨ (be16 p 1 ≤ 124 ∧ (be16 p 1 = 0 → z = true) ∧ p.length < be16 p 1 + 4)))) : PartialCandidate z p :=
  ⟨h.1, h.2.1, fun j h1 h2 => h.2.2.1 j h2 h1, h.2.2.2⟩

theorem witness_ScanSkipsGarbageAndResyncs : (0x7E : Byte) ∉ ([0x11, 0x22] : List Byte) ∧
    (PartialCandidate true [0x7E, 0x00] ∧ ([0x7E, 0x00] : List Byte).length ≤ 2) ∧
    (PartialCandidate true (frame3.take 7) ∧ (frame3.take 7).length < be16 (frame3.take 7) 1 + 3) :=
  ⟨by decide, ⟨partial_of_check (by decide), by decide⟩, partial_of_check (by decide), by decide⟩

theorem witness_ScanDropsMalformedAndMismatchedCandidates :
    ((0x00 : Byte) ≠ 0x7E ∧ (0x7D : Byte) ≠ 0x7E ∧ 124 < (0x00 : Byte).toNat * 256 + (0x7D : Byte).toNat) ∧
    ((0x00 : Byte).toNat * 256 + (0x00 : Byte).toNat = 0) ∧
    (PartialCandidate true (frame3.take 8) ∧ 3 ≤ (frame3.take 8).length ∧
      (frame3.take 8).length = be16 (frame3.take 8) 1 + 3 ∧ (0x7E : Byte) ≠ checksum ((frame3.take 8).drop 3)) :=
  ⟨by decide, by decide, partial_of_check (by decide), by decide, by decide, by decide⟩

theorem witness_ScanEmitsValidFramesAndKeepsThePartial :
    Emittable true frame3 ∧ Emittable false frame1 ∧ Emittable true [0x7E, 0x00, 0x00, 0xFF] ∧
      PartialCandidate true [0x7E] ∧ PartialCandidate false (frame3.take 8) :=
  ⟨emittable_of_check (by decide +kernel), emittable_of_check (by decide +kernel), emittable_of_check (by decide +kernel),
    partial_of_check (by decide), partial_of_check (by decide)⟩

theorem witness_FramesAmongGarbageAreFoundInOrder :
    (∀ gf ∈ [(([0x01, 0x02] : List Byte), frame1), ([0x55], frame3)], 0x7E ∉ gf.1 ∧ Emittable true gf.2) ∧
      (0x7E : Byte) ∉ ([0x33] : List Byte) := by
  refine ⟨fun gf h => ?_, by decide⟩
  simp only [List.mem_cons, List.not_mem_nil, or_false] at h
  rcases h with rfl | rfl <;> exact ⟨by decide, emittable_of_check (by decide +kernel)⟩

theorem witness_ScanNeverEmitsCorruptFramesOrFramesHoldingStart :
    frame3 ∈ framesIn true frame3 ∧ (valid .ID [0x7E, 0x01] = true ∧ (0x7E : Byte) ∈ ([0x7E, 0x01] : List Byte)) ∧
    (let f : List Byte := [0x7E, 0x00, 0x05, 0x08, 0x01, 0x49, 0x44, 0xEB, 0x7E];
      Emittable true f ∧ byteAt f (f.length - 1) = 0x7E) :=
  ⟨by decide +kernel, by decide +kernel, emittable_of_check (by decide +kernel), by decide⟩

theorem witness_BlockReceivesItsOwnFrames : (valid .CH [0x1A] = true ∧ (0x7E : Byte) ∉ ([0x1A] : List Byte)) ∧
    ((List.replicate 8 (0xFF : Byte)).length = 8 ∧ (List.replicate 65 (0x41 : Byte)).length ≤ 65 ∧
      (0x7E : Byte) ∉ List.replicate 8 (0xFF : Byte) ∧ (0x7E : Byte) ∉ List.replicate 65 (0x41 : Byte)) := by
  decide +kernel

/-- Room for every frame, and OFIFO full at the start. -/
theorem witness_ParseLosesNoFrameWhenFull :
    (let s := inputIs frame3;
      s.Inv ∧ (framesIn s.params.zeroLenAccept s.buffered).length ≤ s.params.outDepth - s.ofifo.length) ∧
    (let s := { inputIs frame3 with ofifo := List.replicate 4 frame1 };
      s.Inv ∧ s.params.outDepth - s.ofifo.length < (framesIn s.params.zeroLenAccept s.buffered).length) :=
  ⟨⟨inv_of_check (by decide +kernel), by decide +kernel⟩, inv_of_check (by decide +kernel), by decide +kernel⟩

theorem witness_RepeatedExtractFindsTheFramesOfParse :
    ∃ t, (inputIs (frame1 ++ frame3)).Inv ∧ (inputIs (frame1 ++ frame3)).ofifo = [] ∧
      exec .parse (inputIs (frame1 ++ frame3)) = .next t ∧ t.status = 0x00 ∧ 1 < t.ofifo.length :=
  ⟨_, inv_of_check (by decide +kernel), rfl, rfl, by decide +kernel, by decide +kernel⟩

/-- A frame delivered between two PARSEs. -/
theorem witness_SplittingTheStreamChangesNoFrame :
    let s := operandIs frame3
    let cs : List Instr := [.inPush 0x11, .parse, .inAppend, .parse, .inPush 0x7E]
    ∃ t, s.Inv ∧ (∀ i ∈ cs, (∃ a, i = .inPush a) ∨ i = .inAppend ∨ i = .parse) ∧
      s.inCount + (cs.flatMap s.deliveredBy).length ≤ s.params.inCap ∧
      runCommands (cs.filter (fun i => decide (i ≠ .parse)) ++ [.parse]) s = .next t ∧ t.status = 0x00 ∧
      t.ofifo = [frame3] := by
  refine ⟨_, inv_of_check (by decide +kernel), ?_, by decide +kernel, rfl, by decide +kernel, by decide +kernel⟩
  intro i hi
  simp only [List.mem_cons, List.not_mem_nil, or_false] at hi
  rcases hi with rfl | rfl | rfl | rfl | rfl <;> simp

/-- A PARSE and an EXTRACT to the end, a full IBUF that a PARSE leaves full, and one an EXTRACT takes a frame from. -/
theorem witness_BufferRegainsRoomAfterAFullScan :
    (∃ t, (inputIs frame3).Inv ∧ exec .parse (inputIs frame3) = .next t ∧ t.status = 0x00) ∧
    (∃ t, (inputIs [0x7E]).Inv ∧ exec .extract (inputIs [0x7E]) = .next t ∧ t.status = 0x03) ∧
    (let s := { inputIs (frame3 ++ List.replicate 247 0) with ofifo := List.replicate 4 frame1 };
      ∃ t, s.Inv ∧ exec .parse s = .next t ∧ t.inCount = t.params.inCap) ∧
    (let s := inputIs (frame3 ++ List.replicate 247 0); ∃ t, s.Inv ∧ exec .extract s = .next t ∧ t.inCount = 247) :=
  ⟨⟨_, inv_of_check (by decide +kernel), rfl, by decide +kernel⟩,
    ⟨_, inv_of_check (by decide +kernel), rfl, by decide +kernel⟩,
    ⟨_, inv_of_check (by decide +kernel), rfl, by decide +kernel⟩, _, inv_of_check (by decide +kernel), rfl, by decide +kernel⟩

/-- LENGTH as InspectorReadsSizesAndType and the two after it write it. -/
def lengthField (s : State) : Nat := s.opbuf[1].toNat * 256 + s.opbuf[2].toNat

theorem witness_InspectorReadsSizesAndType :
    (operandIs [0x7E, 0x00]).oplen < 3 ∧ 3 ≤ (operandIs [0x7E, 0x00, 0x05]).oplen ∧
    (operandIs [0x7E, 0x00, 0x05]).oplen < 4 ∧ 4 ≤ (operandIs [0x7E, 0x00, 0x00, 0xFF]).oplen ∧
    lengthField (operandIs [0x7E, 0x00, 0x04]) < 5 ∧ 5 ≤ lengthField (operandIs [0x7E, 0x00, 0x05]) := by decide +kernel

theorem witness_InspectorReadsFieldAndStatus :
    (operandIs (frame3.take 6)).oplen < 7 ∧ 7 ≤ (operandIs (frame3.take 7)).oplen ∧
    (operandIs (frame3.take 7)).opbuf[5] = 0x4E ∧ (operandIs (frame3.take 7)).opbuf[6] = 0x49 ∧
    (operandIs (frame3.take 7)).oplen < 8 ∧ 8 ≤ (operandIs (frame3.take 8)).oplen := by decide +kernel

/-- The clause of FI_ATCMD on wire bytes that are no field's, one off the last row's. -/
theorem witness_InspectorReadsFieldAndStatus_noField :
    7 ≤ (operandIs [0x7E, 0x00, 0x05, 0x88, 0x01, 0x57, 0x53]).oplen ∧
    ∀ row ∈ ([(0x49, 0x44), (0x43, 0x48), (0x4E, 0x49), (0x53, 0x4D), (0x53, 0x4E), (0x53, 0x4F), (0x53, 0x54),
        (0x53, 0x50), (0x57, 0x48), (0x53, 0x48), (0x53, 0x4C), (0x57, 0x52)] : List (Byte × Byte)),
      ¬ ((operandIs [0x7E, 0x00, 0x05, 0x88, 0x01, 0x57, 0x53]).opbuf[5] = row.1 ∧
        (operandIs [0x7E, 0x00, 0x05, 0x88, 0x01, 0x57, 0x53]).opbuf[6] = row.2) := by
  have h5 : (operandIs [0x7E, 0x00, 0x05, 0x88, 0x01, 0x57, 0x53]).opbuf[5] = 0x57 := by decide +kernel
  have h6 : (operandIs [0x7E, 0x00, 0x05, 0x88, 0x01, 0x57, 0x53]).opbuf[6] = 0x53 := by decide +kernel
  exact ⟨by decide +kernel, by rw [h5, h6]; simp⟩

theorem witness_FiAtvalCopiesTheValueOrRaisesRange :
    (let s := operandIs (frameCh.take 9); s.oplen ≤ 128 ∧ s.oplen < 8 + (lengthField s - 5)) ∧
    (let s := operandIs (frameCh.take 10);
      s.oplen ≤ 128 ∧ 3 ≤ s.oplen ∧ 5 ≤ lengthField s ∧ 8 + (lengthField s - 5) ≤ s.oplen) := by decide +kernel

theorem witness_FiRxpayCopiesThePayloadOrRaisesRange :
    (let s := operandIs (frameRx.take 17); s.oplen ≤ 128 ∧ s.oplen < lengthField s + 4) ∧
    (let s := operandIs frameRx;
      s.oplen ≤ 128 ∧ 3 ≤ s.oplen ∧ 16 ≤ lengthField s + 4 ∧ lengthField s + 4 ≤ s.oplen) := by decide +kernel

theorem witness_InspectorReadsBackAResponse :
    (let s := operandIs frameCh;
      s.operand = atResponseFrame 0x01 (wire .CH).1 (wire .CH).2 0x00 [0x0C, 0x00] ∧ s.oplen = 9 + 2) ∧
    (let v : List Byte := List.replicate 119 0xFF;
      let s := operandIs (atResponseFrame 0xFF (wire .WR).1 (wire .WR).2 0x03 v);
      v.length ≤ 119 ∧ s.operand = atResponseFrame 0xFF (wire .WR).1 (wire .WR).2 0x03 v ∧ s.oplen = 9 + v.length) := by
  decide +kernel

theorem witness_InspectorReadsBackAReceivedPacket :
    (let s := operandIs frameRx;
      s.operand = receivePacketFrame (Vector.replicate 8 0) 0xFF 0xFE 0x01 [0x68, 0x69] ∧ s.oplen = 16 + 2) ∧
    (let v : List Byte := List.replicate 112 0x7E;
      let s := operandIs (receivePacketFrame (Vector.replicate 8 0xFF) 0 0 0 v);
      v.length ≤ 112 ∧ s.operand = receivePacketFrame (Vector.replicate 8 0xFF) 0 0 0 v ∧ s.oplen = 16 + v.length) := by
  decide +kernel

theorem witness_ErrorsWriteStatusOnly :
    (∃ t, exec .outPop base = .next t ∧ t.status ≠ 0x00) ∧
    (∃ t, exec .extract (inputIs [0x11, 0x7E]) = .next t ∧ t.status ≠ 0x00) ∧
    (∃ t, exec .parse { inputIs frame3 with ofifo := List.replicate 4 frame1 } = .next t ∧ t.status ≠ 0x00) :=
  ⟨⟨_, rfl, by decide +kernel⟩, ⟨_, rfl, by decide +kernel⟩, _, rfl, by decide +kernel⟩

theorem witness_StatusCauses : (Instr.encAt 11).wellFormed = true ∧ (Instr.destSet 7 0).wellFormed = true ∧
    (waiting (.write 0x000 4 0x00000C21)).pending = .write 0x000 4 0x00000C21 :: [] := by decide

theorem witness_RegistersHaveOnlyTheirWriters : ∃ t, exec .parse (inputIs frame3) = .next t ∧ t.ofifo = [frame3] :=
  ⟨_, rfl, by decide +kernel⟩

/-- Two states that differ in every byte out of sight and in every transient register. -/
theorem witness_UnspecifiedStateIsNeverObservable :
    let s := waiting (.write 0x000 4 0x00000032)
    let t := { s with
      opbuf := Vector.replicate 128 0xAA
      rbuf := Vector.replicate 128 0xAA
      ibuf := List.replicate 256 0xAA
      scan := ⟨.seekStart, Vector.replicate 128 0xAA, 0xAA, 5, 5, 5, 5, 5⟩ }
    s.Inv ∧ t.Inv ∧ s.SameVisible t ∧ s ≠ t ∧ ∃ s', step s = .next s' := by
  refine ⟨inv_of_check (by decide +kernel), inv_of_check (by decide +kernel), ?_, by decide +kernel, _, rfl⟩
  constructor <;> rfl

theorem witness_EveryStepKeepsTheInvariant : ∃ t, ({ inputIs frame3 with
    pending := [.write 0x000 4 0x00000032] } : State).Inv ∧
    step { inputIs frame3 with pending := [.write 0x000 4 0x00000032] } = .next t ∧ t.ofifo = [frame3] :=
  ⟨_, inv_of_check (by decide +kernel), rfl, by decide +kernel⟩

theorem witness_ResetStatesMeetTheInvariant : (⟨128, 1, false⟩ : Params).Legal ∧ (⟨256, 4, true⟩ : Params).Legal := by
  decide

end Sys2Proof.Tests
end

section
/-! SUPPORT. The invariant of the block's states: the rule each shared operation keeps it by, then every command, every
access of the host and every step. -/

namespace Sys2Proof.Machine

/-! ## What the encoder and the scan produce -/

/-- A frame is its body and five bytes more: the START, the LENGTH, the TYPE and the checksum (30_encoding.md R80). -/
@[simp] theorem length_mkFrame (type : Byte) (body : List Byte) : (mkFrame type body).length = body.length + 5 := by
  simp [mkFrame]

@[simp] theorem length_atFrame (f : AtField) (v : List Byte) : (atFrame f v).length = v.length + 8 := by
  simp [atFrame, atBody]

@[simp] theorem length_txFrame (d p : List Byte) : (txFrame d p).length = d.length + p.length + 10 := by
  simp [txFrame, txBody]
  omega

/-- The size cap of R140. -/
theorem length_le_of_valid {f : AtField} {v : List Byte} (h : valid f v = true) : v.length ≤ 120 := by
  simp only [valid, Config.maxAtValue, Bool.and_eq_true, decide_eq_true_eq] at h
  exact h.1

theorem length_slice_le (s : List Byte) (a b : Nat) : (slice s a b).length ≤ s.length := by
  simp only [slice, List.length_take, List.length_drop]
  omega

theorem Emittable.length_le {zeroOk : Bool} {f : List Byte} (h : Emittable zeroOk f) : f.length ≤ 128 := by
  obtain ⟨-, ⟨hlen, -⟩, hbe, -⟩ := h
  omega

/-- An ALL scan finds the first frames of the span, as many as there is room for. -/
theorem scanSpan_all_frames (zeroOk : Bool) (r : ScanRegs) (span : List Byte) (room : Nat) :
    (scanSpan (.all room) zeroOk r span).frames = (candRun zeroOk [] span).1.take room := by
  by_cases h : (candRun zeroOk [] span).1.length ≤ room
  · rw [(scanSpan_all zeroOk r span room h).2.1, List.take_of_length_le h]
  · exact (scanSpan_outFull zeroOk r span room (by omega)).2.1

/-- A FIRST scan finds the first frame of the span, if there is one. -/
theorem scanSpan_first_frames (zeroOk : Bool) (r : ScanRegs) (span : List Byte) :
    (scanSpan .first zeroOk r span).frames = (candRun zeroOk [] span).1.take 1 := by
  cases h : (candRun zeroOk [] span).1 with
  | nil => exact (scanSpan_first_none zeroOk r span h).2.1
  | cons f fs => exact (scanSpan_first_some zeroOk r span f fs h).2.1

theorem length_runScan_all_frames (s : State) (room : Nat) : (s.runScan (.all room)).frames.length ≤ room := by
  rw [State.runScan, scanSpan_all_frames, List.length_take]
  omega

/-- Whatever its mode, a scan finds frames it may emit (43_stream_parser.md R180). -/
theorem runScan_frames_emittable (s : State) (mode : ScanMode) :
    ∀ f ∈ (s.runScan mode).frames, Emittable s.params.zeroLenAccept f := by
  intro f hf
  refine candRun_emittable (.inl rfl) s.buffered f ?_
  cases mode with
  | all room => exact List.mem_of_mem_take (scanSpan_all_frames .. ▸ hf)
  | first => exact List.mem_of_mem_take (scanSpan_first_frames .. ▸ hf)

/-! ## The rule of each shared operation -/

variable {s : State}

theorem State.Inv.raise (h : s.Inv) (st : Status) : (s.raise st).Inv := { h with status := ⟨st, rfl⟩ }

theorem State.Inv.endOk (h : s.Inv) : s.endOk.Inv := h.raise .ok

theorem State.Inv.writeResult (h : s.Inv) (w : Word) : (s.writeResult w).Inv := { h with }

theorem State.Inv.writeResultString (h : s.Inv) {bs : List Byte} (hb : bs.length ≤ 128) :
    (s.writeResultString bs).Inv := { h with rlen := hb }

theorem State.Inv.writeOperand (h : s.Inv) {bs : List Byte} (hb : bs.length ≤ 128) : (s.writeOperand bs).Inv :=
  { h with oplen := hb }

theorem State.Inv.pushOperand (h : s.Inv) (hl : s.oplen < 128) (a : Byte) : (s.pushOperand a).Inv :=
  { h with oplen := hl }

theorem State.Inv.appendInput (h : s.Inv) {bs : List Byte} (hb : s.inCount + bs.length ≤ s.params.inCap) :
    (s.appendInput bs).Inv :=
  { h with
    ibuf := (length_storeList ..).trans h.ibuf
    inCount := hb }

/-- OFIFO may be given any frames that fit and may be emitted (10_state.md R34). -/
theorem State.Inv.setFrames (h : s.Inv) {fs : List (List Byte)} (hl : fs.length ≤ s.params.outDepth)
    (hf : ∀ f ∈ fs, Emittable s.params.zeroLenAccept f) : { s with ofifo := fs }.Inv :=
  { h with
    ofifo := hl
    frames := hf }

theorem State.Inv.queueFrames (h : s.Inv) {fs : List (List Byte)} (hl : fs.length ≤ s.params.outDepth - s.ocount)
    (hf : ∀ f ∈ fs, Emittable s.params.zeroLenAccept f) : { s with ofifo := s.ofifo ++ fs }.Inv := by
  refine h.setFrames ?_ fun f hm => (List.mem_append.1 hm).elim (h.frames f) (hf f)
  have hq := h.ofifo
  rw [State.ocount] at hl
  rw [List.length_append]
  omega

/-- Committing a scan compacts IBUF within its bounds and puts FSM back at rest (43_stream_parser.md R181, 10_state.md
R36). -/
theorem State.Inv.commitScan (h : s.Inv) (mode : ScanMode) : (s.commitScan (s.runScan mode)).Inv :=
  { h with
    ibuf := (length_storeList ..).trans h.ibuf
    inCount := (Nat.sub_le ..).trans h.inCount
    lastConsumed := (runScan_cb_le h mode).trans h.inCount
    fsm := rfl }

theorem State.Inv.inspect (h : s.Inv) (held : Prop) [Decidable held] (value : Nat) : (s.inspect held value).Inv := by
  unfold State.inspect
  split
  · exact (h.writeResult _).endOk
  · exact h.raise _

theorem State.Inv.inspectString (h : s.Inv) (held : Prop) [Decidable held] {value : List Byte}
    (hv : value.length ≤ 128) : (s.inspectString held value).Inv := by
  unfold State.inspectString
  split
  · exact (h.writeResultString hv).endOk
  · exact h.raise _

theorem State.Inv.length_operand_le (h : s.Inv) : s.operand.length ≤ 128 :=
  (length_operand h.oplen).trans_le h.oplen

theorem State.Inv.length_resultString_le (h : s.Inv) : s.resultString.length ≤ 128 :=
  (length_resultString h.rlen).trans_le h.rlen

/-- The reset state of a block with legal parameters (70_reset_and_hazards.md R280). -/
theorem inv_resetWith {p : Params} (hp : p.Legal) : (State.resetWith p).Inv where
  params := hp
  status := ⟨.ok, rfl⟩
  oplen := Nat.zero_le _
  rlen := Nat.zero_le _
  ibuf := List.length_replicate
  inCount := Nat.zero_le _
  lastConsumed := Nat.zero_le _
  ofifo := Nat.zero_le _
  frames := by simp [State.resetWith]
  fsm := rfl

theorem State.Inv.afterReset (h : s.Inv) : s.afterReset.Inv := { inv_resetWith h.params with }

/-- This machine's own parameters are legal, whatever the free constants behind them are. -/
theorem params_legal : Config.params.Legal := ⟨Nat.le_add_left .., Nat.le_add_left ..⟩

/-! ## Every command -/

/-- The next state an outcome holds, if it holds one, meets the invariant. -/
def InvAfter (o : Host.Outcome State Fault Refusal) : Prop := ∀ t, o = .next t → t.Inv

@[simp] theorem invAfter_next {t : State} : InvAfter (.next t) ↔ t.Inv := by simp [InvAfter]

@[simp] theorem invAfter_refused (r : Refusal) : InvAfter (.refused r) := by simp [InvAfter]

theorem execOpbPush_keeps_inv (a : Byte) (h : s.Inv) : InvAfter (execOpbPush a s) := by
  rw [execOpbPush, invAfter_next]
  split
  next => exact h.raise _
  next hne => exact (h.pushOperand (lt_of_le_of_ne h.oplen hne) a).endOk

theorem execDestSet_keeps_inv (index : Imm) (a : Byte) (h : s.Inv) : InvAfter (execDestSet index a s) := by
  rw [execDestSet, invAfter_next]
  split
  · exact State.Inv.endOk { h with }
  · exact h.raise _

theorem execFvCheck_keeps_inv (f : Byte) (h : s.Inv) : InvAfter (execFvCheck f s) := by
  rw [execFvCheck, invAfter_next]
  split
  · exact (h.writeResult _).endOk
  · exact h.raise _

theorem execEncAt_keeps_inv (f : Byte) (h : s.Inv) : InvAfter (execEncAt f s) := by
  rw [execEncAt, invAfter_next]
  split
  · split
    next hv =>
      have hlen := length_le_of_valid hv
      exact (h.writeResultString (by rw [length_atFrame]; omega)).endOk
    next => exact h.raise _
  · exact h.raise _

theorem execEncTx_keeps_inv (h : s.Inv) : InvAfter (execEncTx s) := by
  rw [execEncTx, invAfter_next]
  split
  next => exact h.raise _
  next hle =>
    have hp : s.oplen ≤ 65 := Nat.le_of_not_gt hle
    refine (h.writeResultString ?_).endOk
    rw [length_txFrame, Vector.length_toList, length_operand h.oplen]
    omega

theorem execInPush_keeps_inv (a : Byte) (h : s.Inv) : InvAfter (execInPush a s) := by
  rw [execInPush, invAfter_next]
  split
  next => exact h.raise _
  next hne => exact (h.appendInput (bs := [a]) (lt_of_le_of_ne h.inCount hne)).endOk

theorem execInAppend_keeps_inv (h : s.Inv) : InvAfter (execInAppend s) := by
  rw [execInAppend, invAfter_next]
  split
  next => exact h.raise _
  next hle => exact (h.appendInput (by rw [length_operand h.oplen]; omega)).endOk

/-- PARSE adds emittable frames within the room OFIFO has left. -/
theorem execParse_keeps_inv (h : s.Inv) : InvAfter (execParse s) := by
  rw [execParse, invAfter_next]
  have hqueued := fun w => ((h.commitScan (.all (s.params.outDepth - s.ocount))).queueFrames
    (length_runScan_all_frames s _) (runScan_frames_emittable s _)).writeResult w
  split
  · exact (hqueued _).raise _
  · exact (hqueued _).endOk

/-- EXTRACT moves one frame of the scan, or no byte, into RBUF. -/
theorem execExtract_keeps_inv (h : s.Inv) : InvAfter (execExtract s) := by
  rw [execExtract, invAfter_next]
  have hhead : ((s.runScan .first).frames.headD []).length ≤ 128 := by
    cases hfs : (s.runScan .first).frames with
    | nil => exact Nat.zero_le _
    | cons f fs => exact (runScan_frames_emittable s .first f (hfs ▸ List.mem_cons_self)).length_le
  split
  · exact ((h.commitScan _).writeResultString hhead).endOk
  · exact (h.commitScan _).raise _

theorem execOutPop_keeps_inv (h : s.Inv) : InvAfter (execOutPop s) := by
  rw [execOutPop, invAfter_next]
  split
  next => exact h.raise _
  next fr rest hq =>
    have hl := h.ofifo
    have hf := h.frames
    rw [hq] at hl hf
    have hrest := h.setFrames (Nat.le_of_succ_le hl) fun f hm => hf f (List.mem_cons_of_mem _ hm)
    exact (hrest.writeResultString (hf fr List.mem_cons_self).length_le).endOk

theorem exec_keeps_inv (i : Instr) (h : s.Inv) : InvAfter (exec i s) := by
  cases i with
  | nop => exact invAfter_next.2 h.endOk
  | opbClr => exact invAfter_next.2 (State.Inv.endOk { h with oplen := Nat.zero_le _ })
  | opbPush a => exact execOpbPush_keeps_inv a h
  | opbFromRbuf => exact invAfter_next.2 (h.writeOperand h.length_resultString_le).endOk
  | destSet index a => exact execDestSet_keeps_inv index a h
  | csumClr => exact invAfter_next.2 (State.Inv.endOk { h with })
  | csumAdd a => exact invAfter_next.2 (State.Inv.endOk { h with })
  | csumRead => exact invAfter_next.2 (h.writeResult _).endOk
  | csumBuf => exact invAfter_next.2 (h.writeResult _).endOk
  | fvCheck f => exact execFvCheck_keeps_inv f h
  | encAt f => exact execEncAt_keeps_inv f h
  | encTx => exact execEncTx_keeps_inv h
  | inPush a => exact execInPush_keeps_inv a h
  | inAppend => exact execInAppend_keeps_inv h
  | parse => exact execParse_keeps_inv h
  | extract => exact execExtract_keeps_inv h
  | outPop => exact execOutPop_keeps_inv h
  | fiSize => exact invAfter_next.2 (h.inspect _ _)
  | fiType => exact invAfter_next.2 (h.inspect _ _)
  | fiAtvsz => exact invAfter_next.2 (h.inspect _ _)
  | fiAtval => exact invAfter_next.2 (h.inspectString _ ((length_slice_le ..).trans h.length_operand_le))
  | fiAtcmd => exact invAfter_next.2 (h.inspect _ _)
  | fiAtstat => exact invAfter_next.2 (h.inspect _ _)
  | fiRxpay => exact invAfter_next.2 (h.inspectString _ ((length_slice_le ..).trans h.length_operand_le))
  | pktCount n => exact invAfter_next.2 (h.writeResult _).endOk

/-! ## Every access of the host and every step -/

theorem issue_keeps_inv (w : Word) (h : s.Inv) : InvAfter (issue w s) := by
  unfold issue
  split
  · exact exec_keeps_inv _ h
  · exact invAfter_next.2 (h.raise _)

theorem serve_keeps_inv (a : HostAccess) (h : s.Inv) : InvAfter (serve a s) := by
  unfold serve
  split
  · cases a with
    | write off width w => exact issue_keeps_inv w h
    | read off width => exact invAfter_next.2 { h with }
    | reset => exact invAfter_next.2 h.afterReset
  · exact invAfter_refused _

theorem step_keeps_inv (h : s.Inv) : InvAfter (step s) := by
  unfold step
  split
  · exact invAfter_next.2 h
  · exact serve_keeps_inv _ { h with }

end Sys2Proof.Machine
end

section
/-! PROOFS. The statements about the invariant of the block's states. -/

namespace Sys2Proof.Machine

/-- Settles O54: a step is idle or serves one access, an access is a command, a read or a reset, and each command is
made of operations that keep the invariant. -/
theorem everyStepKeepsTheInvariant : Obligations.EveryStepKeepsTheInvariant :=
  fun _ t h => step_keeps_inv h t

/-- Settles O55: reset sets every register within its range, and this machine's parameters are legal. -/
theorem resetStatesMeetTheInvariant : Obligations.ResetStatesMeetTheInvariant :=
  ⟨fun _ => inv_resetWith, inv_resetWith params_legal⟩

end Sys2Proof.Machine
end

section
/-! SUPPORT. What an observer can tell of two states (10_state.md R36, 20_memory.md R53): the rule by which each shared
operation keeps two states alike, then every command, every access of the host and every step. -/

namespace Sys2Proof.Machine

/-! ## The strings seen after each write -/

/-- What is seen of a string stored at the front of a buffer: as much of it as the buffer holds. -/
theorem take_length_storeFront {n : Nat} (buf : Vector Byte n) (bs : List Byte) :
    (storeFront buf bs).toList.take bs.length = bs.take n := by
  simp [storeList, List.take_take, List.take_append_of_le_length, Nat.min_comm]

theorem resultString_writeResultString (s : State) (bs : List Byte) :
    (s.writeResultString bs).resultString = bs.take 128 :=
  take_length_storeFront s.rbuf bs

theorem operand_writeOperand (s : State) (bs : List Byte) : (s.writeOperand bs).operand = bs.take 128 :=
  take_length_storeFront s.opbuf bs

theorem operand_pushOperand {s : State} (h : s.oplen < 128) (a : Byte) :
    (s.pushOperand a).operand = s.operand ++ [a] :=
  take_setIfInBounds s.opbuf s.oplen a h

/-! ## The rule of each shared operation -/

theorem State.SameVisible.refl (s : State) : s.SameVisible s := by
  constructor <;> rfl

/-- A choice both states make alike keeps them alike when each branch does. -/
theorem State.SameVisible.ite {c c' : Prop} [Decidable c] [Decidable c'] {s s' t t' : State} (hc : c ↔ c')
    (hpos : c' → s.SameVisible t) (hneg : ¬c' → s'.SameVisible t') :
    (if c then s else s').SameVisible (if c' then t else t') := by
  by_cases h : c'
  · rw [if_pos h, if_pos (hc.2 h)]
    exact hpos h
  · rw [if_neg h, if_neg (mt hc.1 h)]
    exact hneg h

variable {s t : State}

theorem State.SameVisible.raise (h : s.SameVisible t) (st : Status) : (s.raise st).SameVisible (t.raise st) :=
  { h with status := rfl }

theorem State.SameVisible.endOk (h : s.SameVisible t) : s.endOk.SameVisible t.endOk := h.raise .ok

theorem State.SameVisible.writeResult (h : s.SameVisible t) (w : Word) :
    (s.writeResult w).SameVisible (t.writeResult w) :=
  { h with result := rfl }

theorem State.SameVisible.writeResultString (h : s.SameVisible t) (bs : List Byte) :
    (s.writeResultString bs).SameVisible (t.writeResultString bs) :=
  { h with
    result := rfl
    rlen := rfl
    resultString := (resultString_writeResultString s bs).trans (resultString_writeResultString t bs).symm }

theorem State.SameVisible.writeOperand (h : s.SameVisible t) (bs : List Byte) :
    (s.writeOperand bs).SameVisible (t.writeOperand bs) :=
  { h with
    oplen := rfl
    operand := (operand_writeOperand s bs).trans (operand_writeOperand t bs).symm }

theorem State.SameVisible.pushOperand (h : s.SameVisible t) (hl : t.oplen < 128) (a : Byte) :
    (s.pushOperand a).SameVisible (t.pushOperand a) :=
  { h with
    oplen := congrArg (· + 1) h.oplen
    operand := by rw [operand_pushOperand (h.oplen ▸ hl), operand_pushOperand hl, h.operand] }

theorem State.SameVisible.appendInput (h : s.SameVisible t) (hs : s.Inv) (ht : t.Inv) {bs : List Byte}
    (hb : t.inCount + bs.length ≤ t.params.inCap) : (s.appendInput bs).SameVisible (t.appendInput bs) :=
  { h with
    inCount := congrArg (· + bs.length) h.inCount
    buffered := by
      rw [buffered_appendInput hs bs (by rwa [h.inCount, h.params]), buffered_appendInput ht bs hb, h.buffered] }

theorem State.SameVisible.setFrames (h : s.SameVisible t) (fs : List (List Byte)) :
    { s with ofifo := fs }.SameVisible { t with ofifo := fs } :=
  { h with ofifo := rfl }

/-- The scans of two states alike find the same frames, stop for the same reason and consume as much, whatever the
transient registers held before (10_state.md R36). -/
theorem State.SameVisible.runScan (h : s.SameVisible t) (mode : ScanMode) :
    (s.runScan mode).frames = (t.runScan mode).frames ∧ (s.runScan mode).stop = (t.runScan mode).stop ∧
      (s.runScan mode).regs.cb = (t.runScan mode).regs.cb := by
  rw [State.runScan, State.runScan, h.params, h.buffered]
  exact scanSpan_congr mode _ _ _ _

theorem State.SameVisible.commitScan (h : s.SameVisible t) (hs : s.Inv) (ht : t.Inv) (mode : ScanMode) :
    (s.commitScan (s.runScan mode)).SameVisible (t.commitScan (t.runScan mode)) := by
  obtain ⟨-, -, hcb⟩ := h.runScan mode
  exact { h with
    inCount := congrArg₂ (· - ·) h.inCount hcb
    lastConsumed := hcb
    buffered := by
      rw [buffered_commitScan hs _ (runScan_cb_le hs mode), buffered_commitScan ht _ (runScan_cb_le ht mode),
        h.buffered, hcb] }

theorem State.SameVisible.inspect (h : s.SameVisible t) {held held' : Prop} [Decidable held] [Decidable held']
    {value value' : Nat} (hheld : held ↔ held') (hvalue : value = value') :
    (s.inspect held value).SameVisible (t.inspect held' value') :=
  .ite hheld (fun _ => hvalue ▸ (h.writeResult _).endOk) fun _ => h.raise _

theorem State.SameVisible.inspectString (h : s.SameVisible t) {held held' : Prop} [Decidable held]
    [Decidable held'] {value value' : List Byte} (hheld : held ↔ held') (hvalue : value = value') :
    (s.inspectString held value).SameVisible (t.inspectString held' value') :=
  .ite hheld (fun _ => hvalue ▸ (h.writeResultString _).endOk) fun _ => h.raise _

/-- Reset keeps nothing that the two states could differ in (70_reset_and_hazards.md R280). -/
theorem State.SameVisible.afterReset (h : s.SameVisible t) : s.afterReset.SameVisible t.afterReset := by
  rw [State.afterReset, State.afterReset, h.params, h.pending, h.hostData]
  exact .refl _

/-- The register map shows nothing out of sight (20_memory.md R51, R53). -/
theorem State.SameVisible.hostRead_eq (h : s.SameVisible t) (off : Nat) : hostRead s off = hostRead t off := by
  simp only [hostRead, State.ocount, h.status, h.result, h.acc, h.oplen, h.rlen, h.inCount, h.ofifo, h.lastConsumed,
    h.dest, h.operand, h.resultString]

/-! ## Every command -/

/-- Two outcomes an observer cannot tell apart: next states alike, or the same refusal. -/
def SameVisibleAfter (o o' : Host.Outcome State Fault Refusal) : Prop :=
  (∀ s', o = .next s' → ∃ t', o' = .next t' ∧ s'.SameVisible t') ∧ ∀ r, o = .refused r → o' = .refused r

@[simp] theorem sameVisibleAfter_next : SameVisibleAfter (.next s) (.next t) ↔ s.SameVisible t := by
  simp [SameVisibleAfter]

@[simp] theorem sameVisibleAfter_refused (r : Refusal) : SameVisibleAfter (.refused r) (.refused r) := by
  simp [SameVisibleAfter]

theorem execOpbPush_sameVisible (a : Byte) (h : s.SameVisible t) (ht : t.Inv) :
    SameVisibleAfter (execOpbPush a s) (execOpbPush a t) := by
  rw [execOpbPush, execOpbPush, sameVisibleAfter_next, h.oplen]
  exact .ite .rfl (fun _ => h.raise _) fun hne => (h.pushOperand (lt_of_le_of_ne ht.oplen hne) a).endOk

theorem execOpbFromRbuf_sameVisible (h : s.SameVisible t) :
    SameVisibleAfter (execOpbFromRbuf s) (execOpbFromRbuf t) := by
  rw [execOpbFromRbuf, execOpbFromRbuf, sameVisibleAfter_next, h.resultString]
  exact (h.writeOperand _).endOk

theorem execDestSet_sameVisible (index : Imm) (a : Byte) (h : s.SameVisible t) :
    SameVisibleAfter (execDestSet index a s) (execDestSet index a t) := by
  rw [execDestSet, execDestSet, sameVisibleAfter_next, h.dest]
  exact .ite .rfl (fun _ => State.SameVisible.endOk { h with dest := rfl }) fun _ => h.raise _

theorem execCsumAdd_sameVisible (a : Byte) (h : s.SameVisible t) :
    SameVisibleAfter (execCsumAdd a s) (execCsumAdd a t) := by
  rw [execCsumAdd, execCsumAdd, sameVisibleAfter_next, h.acc]
  exact State.SameVisible.endOk { h with acc := rfl }

theorem execCsumRead_sameVisible (h : s.SameVisible t) : SameVisibleAfter (execCsumRead s) (execCsumRead t) := by
  rw [execCsumRead, execCsumRead, sameVisibleAfter_next, h.acc]
  exact (h.writeResult _).endOk

theorem execCsumBuf_sameVisible (h : s.SameVisible t) : SameVisibleAfter (execCsumBuf s) (execCsumBuf t) := by
  rw [execCsumBuf, execCsumBuf, sameVisibleAfter_next, h.operand]
  exact (h.writeResult _).endOk

theorem execFvCheck_sameVisible (f : Byte) (h : s.SameVisible t) :
    SameVisibleAfter (execFvCheck f s) (execFvCheck f t) := by
  rw [execFvCheck, execFvCheck, sameVisibleAfter_next, h.operand]
  cases fieldOfId f with
  | some fld => exact (h.writeResult _).endOk
  | none => exact h.raise _

theorem execEncAt_sameVisible (f : Byte) (h : s.SameVisible t) :
    SameVisibleAfter (execEncAt f s) (execEncAt f t) := by
  rw [execEncAt, execEncAt, sameVisibleAfter_next, h.operand]
  cases fieldOfId f with
  | some fld => exact .ite .rfl (fun _ => (h.writeResultString _).endOk) fun _ => h.raise _
  | none => exact h.raise _

theorem execEncTx_sameVisible (h : s.SameVisible t) : SameVisibleAfter (execEncTx s) (execEncTx t) := by
  rw [execEncTx, execEncTx, sameVisibleAfter_next, h.oplen, h.dest, h.operand]
  exact .ite .rfl (fun _ => h.raise _) fun _ => (h.writeResultString _).endOk

theorem execInPush_sameVisible (a : Byte) (h : s.SameVisible t) (hs : s.Inv) (ht : t.Inv) :
    SameVisibleAfter (execInPush a s) (execInPush a t) := by
  rw [execInPush, execInPush, sameVisibleAfter_next, h.inCount, h.params]
  exact .ite .rfl (fun _ => h.raise _) fun hne =>
    (h.appendInput hs ht (bs := [a]) (lt_of_le_of_ne ht.inCount hne)).endOk

theorem execInAppend_sameVisible (h : s.SameVisible t) (hs : s.Inv) (ht : t.Inv) :
    SameVisibleAfter (execInAppend s) (execInAppend t) := by
  rw [execInAppend, execInAppend, sameVisibleAfter_next, h.inCount, h.oplen, h.params, h.operand]
  refine .ite .rfl (fun _ => h.raise _) fun hle => (h.appendInput hs ht ?_).endOk
  rw [length_operand ht.oplen]
  exact Nat.le_of_not_gt hle

/-- PARSE finds the same frames in both states and commits the same scan. -/
theorem execParse_sameVisible (h : s.SameVisible t) (hs : s.Inv) (ht : t.Inv) :
    SameVisibleAfter (execParse s) (execParse t) := by
  obtain ⟨hframes, hstop, -⟩ := h.runScan (.all (t.params.outDepth - t.ofifo.length))
  rw [execParse, execParse, sameVisibleAfter_next, State.ocount, State.ocount, h.ofifo, h.params, hframes, hstop]
  have hqueued := fun mode => ((h.commitScan hs ht mode).setFrames (t.ofifo ++ (t.runScan mode).frames)).writeResult
    (countWord (t.runScan mode).frames.length)
  exact .ite .rfl (fun _ => (hqueued _).raise _) fun _ => (hqueued _).endOk

theorem execExtract_sameVisible (h : s.SameVisible t) (hs : s.Inv) (ht : t.Inv) :
    SameVisibleAfter (execExtract s) (execExtract t) := by
  obtain ⟨hframes, hstop, -⟩ := h.runScan .first
  have hcommit := h.commitScan hs ht .first
  rw [execExtract, execExtract, sameVisibleAfter_next, hframes, hstop]
  exact .ite .rfl (fun _ => (hcommit.writeResultString _).endOk) fun _ => hcommit.raise _

theorem execOutPop_sameVisible (h : s.SameVisible t) : SameVisibleAfter (execOutPop s) (execOutPop t) := by
  rw [execOutPop, execOutPop, sameVisibleAfter_next, h.ofifo]
  cases t.ofifo with
  | nil => exact h.raise _
  | cons fr rest => exact ((h.setFrames rest).writeResultString fr).endOk

theorem exec_sameVisible (i : Instr) (h : s.SameVisible t) (hs : s.Inv) (ht : t.Inv) :
    SameVisibleAfter (exec i s) (exec i t) := by
  cases i with
  | nop => exact sameVisibleAfter_next.2 h.endOk
  | opbClr => exact sameVisibleAfter_next.2 (State.SameVisible.endOk { h with oplen := rfl, operand := rfl })
  | opbPush a => exact execOpbPush_sameVisible a h ht
  | opbFromRbuf => exact execOpbFromRbuf_sameVisible h
  | destSet index a => exact execDestSet_sameVisible index a h
  | csumClr => exact sameVisibleAfter_next.2 (State.SameVisible.endOk { h with acc := rfl })
  | csumAdd a => exact execCsumAdd_sameVisible a h
  | csumRead => exact execCsumRead_sameVisible h
  | csumBuf => exact execCsumBuf_sameVisible h
  | fvCheck f => exact execFvCheck_sameVisible f h
  | encAt f => exact execEncAt_sameVisible f h
  | encTx => exact execEncTx_sameVisible h
  | inPush a => exact execInPush_sameVisible a h hs ht
  | inAppend => exact execInAppend_sameVisible h hs ht
  | parse => exact execParse_sameVisible h hs ht
  | extract => exact execExtract_sameVisible h hs ht
  | outPop => exact execOutPop_sameVisible h
  | fiSize => exact sameVisibleAfter_next.2 (h.inspect (by rw [h.oplen]) (by rw [h.operand]))
  | fiType => exact sameVisibleAfter_next.2 (h.inspect (by rw [h.oplen]) (by rw [h.operand]))
  | fiAtvsz => exact sameVisibleAfter_next.2 (h.inspect (by rw [h.oplen, h.operand]) (by rw [h.operand]))
  | fiAtval => exact sameVisibleAfter_next.2 (h.inspectString (by rw [h.oplen, h.operand]) (by rw [h.operand]))
  | fiAtcmd => exact sameVisibleAfter_next.2 (h.inspect (by rw [h.oplen]) (by rw [h.operand]))
  | fiAtstat => exact sameVisibleAfter_next.2 (h.inspect (by rw [h.oplen]) (by rw [h.operand]))
  | fiRxpay => exact sameVisibleAfter_next.2 (h.inspectString (by rw [h.oplen, h.operand]) (by rw [h.operand]))
  | pktCount n => exact sameVisibleAfter_next.2 (h.writeResult _).endOk

/-! ## Every access of the host and every step -/

theorem issue_sameVisible (w : Word) (h : s.SameVisible t) (hs : s.Inv) (ht : t.Inv) :
    SameVisibleAfter (issue w s) (issue w t) := by
  unfold issue
  cases decode w with
  | ok i => exact exec_sameVisible i h hs ht
  | error _ => exact sameVisibleAfter_next.2 (h.raise _)

theorem serve_sameVisible (a : HostAccess) (h : s.SameVisible t) (hs : s.Inv) (ht : t.Inv) :
    SameVisibleAfter (serve a s) (serve a t) := by
  unfold serve
  split
  · cases a with
    | write off width w => exact issue_sameVisible w h hs ht
    | read off width =>
      exact sameVisibleAfter_next.2 { h with hostData := by rw [h.hostData, h.hostRead_eq] }
    | reset => exact sameVisibleAfter_next.2 h.afterReset
  · exact sameVisibleAfter_refused _

theorem step_sameVisible (h : s.SameVisible t) (hs : s.Inv) (ht : t.Inv) : SameVisibleAfter (step s) (step t) := by
  unfold step
  rw [h.pending]
  cases t.pending with
  | nil => exact sameVisibleAfter_next.2 h
  | cons a rest => exact serve_sameVisible a { h with pending := rfl } { hs with } { ht with }

end Sys2Proof.Machine
end

section
/-! PROOFS. The statements about the block's registers as a whole (10_state.md). -/

namespace Sys2Proof.Machine

/-- Settles O53: every read and every operation of a command uses only what the two states agree on, and a scan starts
its transient registers afresh. -/
theorem unspecifiedStateIsNeverObservable : Obligations.UnspecifiedStateIsNeverObservable :=
  fun _ _ hs ht h => ⟨h.hostRead_eq, step_sameVisible h hs ht⟩

end Sys2Proof.Machine
end

section
/-! SUPPORT. What a command can do to the block's registers: which of them it may write, as one table, and the status
it ends with (10_state.md R22, R24). -/

namespace Sys2Proof.Machine

/-- s with the registers that command i may write taken from t (70_reset_and_hazards.md R291, 30_encoding.md R93). -/
def frameOf (i : Instr) (s t : State) : State :=
  match i with
  | .nop => { s with status := t.status }
  | .opbClr | .opbPush _ | .opbFromRbuf => { s with opbuf := t.opbuf, oplen := t.oplen, status := t.status }
  | .destSet _ _ => { s with dest := t.dest, status := t.status }
  | .csumClr | .csumAdd _ => { s with acc := t.acc, status := t.status }
  | .csumRead | .csumBuf | .fvCheck _ | .fiSize | .fiType | .fiAtvsz | .fiAtcmd | .fiAtstat | .pktCount _ =>
    { s with result := t.result, status := t.status }
  | .encAt _ | .encTx | .fiAtval | .fiRxpay =>
    { s with rbuf := t.rbuf, rlen := t.rlen, result := t.result, status := t.status }
  | .inPush _ | .inAppend => { s with ibuf := t.ibuf, inCount := t.inCount, status := t.status }
  | .parse =>
    { s with
      ibuf := t.ibuf
      inCount := t.inCount
      lastConsumed := t.lastConsumed
      scan := t.scan
      ofifo := t.ofifo
      result := t.result
      status := t.status }
  | .extract =>
    { s with
      ibuf := t.ibuf
      inCount := t.inCount
      lastConsumed := t.lastConsumed
      scan := t.scan
      rbuf := t.rbuf
      rlen := t.rlen
      result := t.result
      status := t.status }
  | .outPop =>
    { s with ofifo := t.ofifo, rbuf := t.rbuf, rlen := t.rlen, result := t.result, status := t.status }

/-- State t is one that command i can leave from state s: it keeps what i does not write, and its STATUS is a code. -/
structure Leaves (i : Instr) (s t : State) : Prop where
  frame : t = frameOf i s t
  status : ∃ st, t.status = statusCode st

theorem Leaves.ite {c : Prop} [Decidable c] {i : Instr} {s t t' : State} (h : Leaves i s t) (h' : Leaves i s t') :
    Leaves i s (if c then t else t') := by
  split <;> assumption

/-- Every command completes, with the statuses of 60_exceptions.md R251, and writes its own registers only. -/
theorem exec_leaves (i : Instr) (s : State) : ∃ t, exec i s = .next t ∧ Leaves i s t := by
  cases i with
  | nop => exact ⟨_, rfl, rfl, .ok, rfl⟩
  | opbClr => exact ⟨_, rfl, rfl, .ok, rfl⟩
  | opbPush a => exact ⟨_, rfl, .ite ⟨rfl, .full, rfl⟩ ⟨rfl, .ok, rfl⟩⟩
  | opbFromRbuf => exact ⟨_, rfl, rfl, .ok, rfl⟩
  | destSet index a => exact ⟨_, rfl, .ite ⟨rfl, .ok, rfl⟩ ⟨rfl, .illegal, rfl⟩⟩
  | csumClr => exact ⟨_, rfl, rfl, .ok, rfl⟩
  | csumAdd a => exact ⟨_, rfl, rfl, .ok, rfl⟩
  | csumRead => exact ⟨_, rfl, rfl, .ok, rfl⟩
  | csumBuf => exact ⟨_, rfl, rfl, .ok, rfl⟩
  | fvCheck f =>
    refine ⟨_, rfl, ?_⟩
    cases fieldOfId f with
    | some fld => exact ⟨rfl, .ok, rfl⟩
    | none => exact ⟨rfl, .illegal, rfl⟩
  | encAt f =>
    refine ⟨_, rfl, ?_⟩
    cases fieldOfId f with
    | some fld => exact .ite ⟨rfl, .ok, rfl⟩ ⟨rfl, .validationError, rfl⟩
    | none => exact ⟨rfl, .illegal, rfl⟩
  | encTx => exact ⟨_, rfl, .ite ⟨rfl, .payloadTooLarge, rfl⟩ ⟨rfl, .ok, rfl⟩⟩
  | inPush a => exact ⟨_, rfl, .ite ⟨rfl, .full, rfl⟩ ⟨rfl, .ok, rfl⟩⟩
  | inAppend => exact ⟨_, rfl, .ite ⟨rfl, .full, rfl⟩ ⟨rfl, .ok, rfl⟩⟩
  | parse => exact ⟨_, rfl, .ite ⟨rfl, .full, rfl⟩ ⟨rfl, .ok, rfl⟩⟩
  | extract => exact ⟨_, rfl, .ite ⟨rfl, .ok, rfl⟩ ⟨rfl, .notFound, rfl⟩⟩
  | outPop =>
    refine ⟨_, rfl, ?_⟩
    split
    · exact ⟨rfl, .empty, rfl⟩
    · exact ⟨rfl, .ok, rfl⟩
  | fiSize => exact ⟨_, rfl, .ite ⟨rfl, .ok, rfl⟩ ⟨rfl, .range, rfl⟩⟩
  | fiType => exact ⟨_, rfl, .ite ⟨rfl, .ok, rfl⟩ ⟨rfl, .range, rfl⟩⟩
  | fiAtvsz => exact ⟨_, rfl, .ite ⟨rfl, .ok, rfl⟩ ⟨rfl, .range, rfl⟩⟩
  | fiAtval => exact ⟨_, rfl, .ite ⟨rfl, .ok, rfl⟩ ⟨rfl, .range, rfl⟩⟩
  | fiAtcmd => exact ⟨_, rfl, .ite ⟨rfl, .ok, rfl⟩ ⟨rfl, .range, rfl⟩⟩
  | fiAtstat => exact ⟨_, rfl, .ite ⟨rfl, .ok, rfl⟩ ⟨rfl, .range, rfl⟩⟩
  | fiRxpay => exact ⟨_, rfl, .ite ⟨rfl, .ok, rfl⟩ ⟨rfl, .range, rfl⟩⟩
  | pktCount n => exact ⟨_, rfl, rfl, .ok, rfl⟩

theorem eq_frameOf_of_exec {i : Instr} {s t : State} (h : exec i s = .next t) : t = frameOf i s t := by
  obtain ⟨t', ht', hleaves⟩ := exec_leaves i s
  obtain rfl := Host.Outcome.next.inj (ht'.symm.trans h)
  exact hleaves.frame

theorem statusCode_mem (st : Status) :
    statusCode st ∈ ([0x00, 0x01, 0x02, 0x03, 0x04, 0x05, 0x06, 0x07] : List (BitVec 8)) := by
  cases st <;> decide

end Sys2Proof.Machine
end

section
/-! PROOFS. The statements about what a command reads of STATUS and what it writes (10_state.md). -/

namespace Sys2Proof.Machine

/-- Settles O50: each row of `frameOf` takes from the next state only registers that the statement lets the command
write. -/
theorem registersHaveOnlyTheirWriters : Obligations.RegistersHaveOnlyTheirWriters := by
  intro i s t h
  rw [eq_frameOf_of_exec h]
  cases i <;> simp [frameOf]

/-- Settles O51: no arm of any command reads STATUS, and each ends by writing it. -/
theorem noCommandReadsStatus : Obligations.NoCommandReadsStatus := by
  intro i s x
  cases i <;> rfl

/-- Settles O52: every branch of every command ends by raising one of the statuses or with OK. -/
theorem everyCommandCompletesWithALegalStatus : Obligations.EveryCommandCompletesWithALegalStatus := by
  intro i s
  obtain ⟨t, ht, -, st, hst⟩ := exec_leaves i s
  exact ⟨t, ht, hst ▸ statusCode_mem st⟩

end Sys2Proof.Machine
end

section
/-! SUPPORT. The host port (20_memory.md R51 to R55): the word each row of the register map reads, which accesses are
admitted, and what serving one does. -/

namespace Sys2Proof.Machine

/-! ## The register map -/

/-- A byte is read zero-extended (R51). -/
theorem toNat_zeroExtend_byte (b : Byte) : (b.zeroExtend 32).toNat = b.toNat :=
  BitVec.toNat_setWidth_of_le (by decide)

/-- A length of at most 128 is read as itself (R51). -/
theorem toNat_ofNat_length {n : Nat} (h : n ≤ 128) : (BitVec.ofNat 32 n).toNat = n := by
  rw [BitVec.toNat_ofNat, Nat.mod_eq_of_lt (by omega)]

/-- A byte of the string in a buffer's first n bytes is the buffer's own below n and 0 from n on (R53). -/
theorem toNat_byteAt_take {m : Nat} (buf : Vector Byte m) (n : Nat) (i : Fin m) :
    (byteAt (buf.toList.take n) i.val).toNat = if i.val < n then buf[i].toNat else 0 := by
  rw [byteAt]
  split
  next h => simp [h]
  next h => exact congrArg BitVec.toNat (List.getD_eq_default _ _ (by simp; omega))

/-- The row of a buffer's byte, from the offset of its word (R51). -/
theorem rowOffset_sub_div (base i : Nat) : (base + 4 * i - base) / 4 = i := by
  omega

variable (s : State)

theorem hostRead_dest (i : Fin 8) : hostRead s (0x040 + 4 * i.val) = s.dest[i].zeroExtend 32 := by
  simp (disch := omega) only [hostRead, if_neg, if_pos, rowOffset_sub_div]
  simp [byteAt]

theorem hostRead_operandByte (i : Fin 128) :
    hostRead s (0x200 + 4 * i.val) = (byteAt s.operand i.val).zeroExtend 32 := by
  simp (disch := omega) only [hostRead, if_neg, if_pos, rowOffset_sub_div]

theorem hostRead_resultByte (i : Fin 128) :
    hostRead s (0x400 + 4 * i.val) = (byteAt s.resultString i.val).zeroExtend 32 := by
  simp (disch := omega) only [hostRead, if_neg, if_pos, rowOffset_sub_div]

/-- No row of R51 stands past LAST_CONSUMED outside the ranges of DEST, OPBUF and RBUF. -/
theorem hostRead_reserved {off : Nat} (hlow : 0x020 < off) (hdest : ¬ (0x040 ≤ off ∧ off < 0x060))
    (hbufs : ¬ (0x200 ≤ off ∧ off < 0x600)) : hostRead s off = 0 := by
  simp (disch := omega) only [hostRead, if_neg]

/-! ## One access and one step -/

variable {s}

/-- The step serves the oldest pending access. -/
theorem step_of_pending {a : HostAccess} {rest : List HostAccess} (h : s.pending = a :: rest) :
    step s = serve a { s with pending := rest } := by
  rw [step, h]

theorem serve_write (w : Word) : serve (.write 0x000 4 w) s = issue w s := rfl

theorem issue_of_decode {w : Word} {i : Instr} (h : decode w = .ok i) : issue w s = exec i s := by
  rw [issue, h]

theorem admitted_write_iff (off width : Nat) (w : Word) :
    (HostAccess.write off width w).admitted = true ↔ off = 0x000 ∧ width = 4 := by
  simp [HostAccess.admitted]

theorem admitted_read_iff (off width : Nat) :
    (HostAccess.read off width).admitted = true ↔ off < 0x1000 ∧ off % 4 = 0 ∧ width = 4 := by
  simp [HostAccess.admitted, and_assoc]

theorem serve_of_not_admitted {a : HostAccess} (h : ¬ a.admitted = true) :
    serve a s = .refused (.accessNotAdmitted a) :=
  if_neg h

theorem serve_read {off : Nat} (hwin : off < 0x1000) (halign : off % 4 = 0) :
    serve (.read off 4) s = .next { s with hostData := s.hostData ++ [hostRead s off] } :=
  if_pos ((admitted_read_iff off 4).2 ⟨hwin, halign, rfl⟩)

/-- Issuing a word has a next state, and no command touches the accesses still pending. -/
theorem issue_keeps_pending (w : Word) (s : State) : ∃ t, issue w s = .next t ∧ t.pending = s.pending := by
  unfold issue
  cases decode w with
  | ok i =>
    obtain ⟨t, ht, -⟩ := exec_leaves i s
    obtain ⟨-, hpending, -⟩ := registersHaveOnlyTheirWriters i s t ht
    exact ⟨t, ht, hpending⟩
  | error _ => exact ⟨_, rfl, rfl⟩

theorem serve_of_admitted {a : HostAccess} (h : a.admitted = true) (s : State) :
    ∃ t, serve a s = .next t ∧ t.pending = s.pending := by
  unfold serve
  rw [if_pos h]
  cases a with
  | write off width w => exact issue_keeps_pending w s
  | read off width => exact ⟨_, rfl, rfl⟩
  | reset => exact ⟨_, rfl, rfl⟩

end Sys2Proof.Machine
end

section
/-! PROOFS. The statements about the host port (20_memory.md). -/

namespace Sys2Proof.Machine

/-- Settles O7: one row of R51 after another; the invariant bounds OPLEN and RLEN by 128, and the counts by IN_CAP and
OUT_DEPTH. -/
theorem registerMapReadsTheRegisters : Obligations.RegisterMapReadsTheRegisters := by
  intro s h hcap hdepth
  refine ⟨rfl, toNat_zeroExtend_byte _, rfl, toNat_zeroExtend_byte _, toNat_ofNat_length h.oplen,
    toNat_ofNat_length h.rlen, countWord_toNat (h.inCount.trans_lt hcap), countWord_toNat (h.ofifo.trans_lt hdepth),
    countWord_toNat (h.lastConsumed.trans_lt hcap), fun i => ?dest, fun i => ?opbuf, fun i => ?rbuf,
    fun off _ _ hlow hdest hbufs => hostRead_reserved s hlow hdest hbufs⟩
  case dest => rw [hostRead_dest, toNat_zeroExtend_byte]
  case opbuf =>
    rw [hostRead_operandByte, toNat_zeroExtend_byte, State.operand, toNat_byteAt_take]
  case rbuf =>
    rw [hostRead_resultByte, toNat_zeroExtend_byte, State.resultString, toNat_byteAt_take]

/-- Settles O9: what the statement calls refused is what the port does not admit, access by access; an admitted access
is served and leaves the ones after it pending. -/
theorem onlyAdmittedAccessesHaveAStep : Obligations.OnlyAdmittedAccessesHaveAStep := by
  intro s a rest hp refused
  have hrefused : refused ↔ ¬ a.admitted = true := by
    cases a with
    | write off width w => exact not_congr (admitted_write_iff off width w).symm
    | read off width => exact not_congr (admitted_read_iff off width).symm
    | reset => exact iff_of_false id (not_not_intro rfl)
  rw [hrefused, not_not, step_of_pending hp]
  exact ⟨serve_of_not_admitted, fun h => serve_of_admitted h _⟩

/-- Settles O5: the access is a CMD write, and serving it issues its word. -/
theorem stepRunsTheDecodedCommand : Obligations.StepRunsTheDecodedCommand := by
  intro s w i rest hp hw
  rw [step_of_pending hp, serve_write, issue_of_decode hw]

/-- Settles O8: the read is admitted, and neither list of the host's side stands in the register map. -/
theorem hostReadReturnsTheMapAndChangesNothing : Obligations.HostReadReturnsTheMapAndChangesNothing := by
  intro s off rest hp hwin halign
  exact ⟨_, (step_of_pending hp).trans (serve_read hwin halign), rfl, fun _ => rfl⟩

end Sys2Proof.Machine
end

section
/-! SUPPORT. The command word (30_encoding.md R70 to R76): the words that decode are the words of the legal commands,
and the words that do not are those R75 lists. -/

namespace Sys2Proof

/-! ## The opcode map -/

open Laws.OpcodeRow in
/-- Every command stands in the opcode map of R74, in a format that reserves only fields it leaves zero. -/
theorem opcodeMap_opcode : ∀ i : Instr, Statement i
  | .nop => nop
  | .opbClr => opbClr
  | .opbPush a => opbPush a
  | .opbFromRbuf => opbFromRbuf
  | .destSet index a => destSet index a
  | .csumClr => csumClr
  | .csumAdd a => csumAdd a
  | .csumRead => csumRead
  | .csumBuf => csumBuf
  | .fvCheck f => fvCheck f
  | .encAt f => encAt f
  | .encTx => encTx
  | .inPush a => inPush a
  | .inAppend => inAppend
  | .parse => parse
  | .extract => extract
  | .outPop => outPop
  | .fiSize => fiSize
  | .fiType => fiType
  | .fiAtvsz => fiAtvsz
  | .fiAtval => fiAtval
  | .fiAtcmd => fiAtcmd
  | .fiAtstat => fiAtstat
  | .fiRxpay => fiRxpay
  | .pktCount n => pktCount n

/-- The format of a command (R74). -/
def Instr.format : Instr → Format
  | .opbPush _ | .csumAdd _ | .fvCheck _ | .encAt _ | .inPush _ => .fa
  | .pktCount _ => .fi
  | .destSet _ _ => .fai
  | .nop | .opbClr | .opbFromRbuf | .csumClr | .csumRead | .csumBuf | .encTx | .inAppend | .parse | .extract | .outPop
  | .fiSize | .fiType | .fiAtvsz | .fiAtval | .fiAtcmd | .fiAtstat | .fiRxpay => .f0

/-- What a row of the map says: the command's opcode and format, and that the fields it reserves are zero exactly when
A and IMM are the command's own (R72, R73). -/
theorem opcodeMap_eq_some {op a : Byte} {imm : Imm} {f : Format} {i : Instr}
    (h : opcodeMap op a imm = some (f, i)) :
    i.opcode = op ∧ i.format = f ∧
      (f.reservedZero a imm = true ↔ a = i.aOperand ∧ imm = i.immOperand) := by
  unfold opcodeMap at h
  split at h
  case h_26 => exact absurd h (by simp)
  all_goals
    next hop =>
    obtain ⟨rfl, rfl⟩ := Prod.mk.inj (Option.some.inj h)
    refine ⟨BitVec.eq_of_toNat_eq hop.symm, rfl, ?_⟩
    simp [Format.reservedZero, Instr.aOperand, Instr.immOperand]

/-! ## The decoder and the encoder -/

/-- The word of any command fails no check but that of its operand's range (R71). -/
theorem decode_encode (i : Instr) :
    decode (encode i) = if i.wellFormed = false then .error .operandOutOfRange else .ok i := by
  obtain ⟨f, hmap, hres⟩ := opcodeMap_opcode i
  rw [decode, opField_encode, aField_encode, immField_encode, hmap]
  simp [hres]

/-- A command whose operands are the fields of a word has that word (R70, R74). -/
theorem encode_eq_of_fields {i : Instr} {w : Word} (hop : i.opcode = opField w) (ha : i.aOperand = aField w)
    (himm : i.immOperand = immField w) : encode i = w := by
  apply BitVec.eq_of_toNat_eq
  rw [toNat_encode, hop, ha, himm, toNat_opField, toNat_aField, toNat_immField]
  omega

/-- The words that decode are the words of the legal commands, and each decodes to its own command. -/
theorem decode_eq_ok_iff (w : Word) (i : Instr) : decode w = .ok i ↔ i.wellFormed = true ∧ encode i = w := by
  constructor
  · intro h
    unfold decode at h
    split at h
    next => simp at h
    next f j hmap =>
      split_ifs at h with hres hwf
      obtain rfl := Except.ok.inj h
      obtain ⟨hop, -, hfields⟩ := opcodeMap_eq_some hmap
      obtain ⟨ha, himm⟩ := hfields.1 (by simpa using hres)
      exact ⟨by simpa using hwf, encode_eq_of_fields hop ha.symm himm.symm⟩
  · rintro ⟨hwf, rfl⟩
    rw [decode_encode, if_neg (by simp [hwf])]

end Sys2Proof

namespace Sys2Proof.Machine

/-! ## Illegal words -/

/-- The first point of R75: an opcode the map of R74 does not list. -/
def UnlistedOpcode (op : Nat) : Prop :=
  (0x05 ≤ op ∧ op ≤ 0x0F) ∨ (0x14 ≤ op ∧ op ≤ 0x1F) ∨ (0x23 ≤ op ∧ op ≤ 0x2F) ∨ (0x35 ≤ op ∧ op ≤ 0x3F) ∨ 0x48 ≤ op

/-- The second point of R75: a field that the opcode's format reserves is not zero. -/
def ReservedFieldSet (op a imm : Nat) : Prop :=
  (op ∈ [0x00, 0x01, 0x03, 0x10, 0x12, 0x13, 0x22, 0x31, 0x32, 0x33, 0x34, 0x40, 0x41, 0x42, 0x43, 0x44, 0x45, 0x46] ∧
    (a ≠ 0 ∨ imm ≠ 0)) ∨
  (op ∈ [0x02, 0x11, 0x20, 0x21, 0x30] ∧ imm ≠ 0) ∨ (op = 0x47 ∧ a ≠ 0)

/-- The last two points of R75: a field id of 12 or more, or a DEST_SET index of 8 or more. -/
def OperandTooLarge (op a imm : Nat) : Prop := ((op = 0x20 ∨ op = 0x21) ∧ 12 ≤ a) ∨ (op = 0x04 ∧ 8 ≤ imm)

theorem illegalWord_iff (w : Word) : IllegalWord w ↔
    UnlistedOpcode (opField w).toNat ∨ ReservedFieldSet (opField w).toNat (aField w).toNat (immField w).toNat ∨
      OperandTooLarge (opField w).toNat (aField w).toNat (immField w).toNat := by
  rw [toNat_opField, toNat_aField, toNat_immField]
  simp only [IllegalWord, UnlistedOpcode, ReservedFieldSet, OperandTooLarge, or_assoc]

theorem unlistedOpcode_of_opcodeMap {op a : Byte} {imm : Imm} (h : opcodeMap op a imm = none) :
    UnlistedOpcode op.toNat := by
  unfold opcodeMap at h
  split at h
  case h_26 =>
    unfold UnlistedOpcode
    simp only [imp_false] at *
    omega
  all_goals exact absurd h (by simp)

theorem not_unlistedOpcode (i : Instr) : ¬ UnlistedOpcode i.opcode.toNat := by
  cases i <;> simp [UnlistedOpcode, Instr.opcode]

theorem reservedFieldSet_iff (i : Instr) (a : Byte) (imm : Imm) :
    ReservedFieldSet i.opcode.toNat a.toNat imm.toNat ↔ i.format.reservedZero a imm = false := by
  cases i <;>
    simp [ReservedFieldSet, Instr.opcode, Instr.format, Format.reservedZero, BitVec.toNat_eq, imp_iff_not_or]

theorem operandTooLarge_iff (i : Instr) :
    OperandTooLarge i.opcode.toNat i.aOperand.toNat i.immOperand.toNat ↔ i.wellFormed = false := by
  cases i <;>
    simp [OperandTooLarge, Instr.opcode, Instr.aOperand, Instr.immOperand, Instr.wellFormed]

/-- The fields a command's format reserves are zero in its own word (R72). -/
theorem reservedZero_operands (i : Instr) : i.format.reservedZero i.aOperand i.immOperand = true := by
  obtain ⟨f, hmap, hres⟩ := opcodeMap_opcode i
  obtain ⟨-, rfl, -⟩ := opcodeMap_eq_some hmap
  exact hres

/-- Of the words of commands, the illegal ones are those of the commands with an operand out of range. -/
theorem illegalWord_encode_iff (i : Instr) : IllegalWord (encode i) ↔ i.wellFormed = false := by
  rw [illegalWord_iff, opField_encode, aField_encode, immField_encode, reservedFieldSet_iff, operandTooLarge_iff]
  simp [not_unlistedOpcode, reservedZero_operands]

/-- R75 lists a point for each check of R71 that a word can fail. -/
theorem illegalWord_of_not_decoded {w : Word} (h : ∀ i, decode w ≠ .ok i) : IllegalWord w := by
  rw [illegalWord_iff]
  cases hmap : opcodeMap (opField w) (aField w) (immField w) with
  | none => exact .inl (unlistedOpcode_of_opcodeMap hmap)
  | some row =>
    obtain ⟨f, i⟩ := row
    obtain ⟨hop, hformat, hfields⟩ := opcodeMap_eq_some hmap
    rw [← hop]
    by_cases hres : f.reservedZero (aField w) (immField w) = true
    · obtain ⟨ha, himm⟩ := hfields.1 hres
      have hword := encode_eq_of_fields hop ha.symm himm.symm
      have hwf : ¬ i.wellFormed = true := fun hwf => h i ((decode_eq_ok_iff w i).2 ⟨hwf, hword⟩)
      rw [ha, himm, operandTooLarge_iff]
      exact .inr (.inr (Bool.eq_false_of_not_eq_true hwf))
    · rw [reservedFieldSet_iff, hformat]
      exact .inr (.inl (Bool.eq_false_of_not_eq_true hres))

theorem illegalWord_iff_not_decoded (w : Word) : IllegalWord w ↔ ∀ i, decode w ≠ .ok i := by
  refine ⟨fun h i hi => ?_, illegalWord_of_not_decoded⟩
  obtain ⟨hwf, rfl⟩ := (decode_eq_ok_iff w i).1 hi
  rw [illegalWord_encode_iff, hwf] at h
  exact absurd h (by simp)

theorem issue_of_illegalWord {w : Word} (h : IllegalWord w) (s : State) : issue w s = .next (s.raise .illegal) := by
  unfold issue
  cases hw : decode w with
  | ok i => exact absurd hw ((illegalWord_iff_not_decoded w).1 h i)
  | error _ => rfl

/-! ## What commands other than NOP do -/

/-- Registers of which every command but NOP can change one with OK. -/
def workRegisters (s : State) : List Nat :=
  [s.result.toNat, s.acc.toNat, s.oplen, s.rlen, s.dest[0].toNat, s.inCount, s.ofifo.length]

/-- Whether command i ends with OK and changes a work register of s. -/
def worksOn (i : Instr) (s : State) : Bool :=
  match exec i s with
  | .next t => t.status == 0x00 && workRegisters t != workRegisters s
  | _ => false

/-- A work register changed is an effect besides STATUS <- OK. -/
theorem exists_of_worksOn {i : Instr} {s : State} (h : worksOn i s = true) :
    ∃ t, exec i s = .next t ∧ t ≠ { s with status := 0x00 } := by
  unfold worksOn at h
  split at h
  next t ht =>
    refine ⟨t, ht, ?_⟩
    rintro rfl
    simp [workRegisters] at h
  next => simp at h

/-- A state in which every command but NOP has work to do: a frame is buffered and another queued, and the operand
string is at once a value of NI and laid out as a frame of 16 bytes. -/
def busyState : State :=
  { State.resetWith ⟨128, 2, true⟩ with
    result := 0xFFFFFFFF
    acc := 0x01
    opbuf := (Vector.replicate 128 0).set 2 0x0C
    oplen := 16
    rlen := 1
    ibuf := [0x7E, 0x00, 0x00, 0xFF] ++ List.replicate 124 0
    inCount := 4
    ofifo := [[0x7E, 0x00, 0x00, 0xFF]] }

/-- Each opcode but NOP's has a legal command that works on the busy state. -/
theorem exists_working_command (i : Instr) (h : i.opcode ≠ 0x00) :
    ∃ j : Instr, j.opcode = i.opcode ∧ j.wellFormed = true ∧ worksOn j busyState = true := by
  cases i with
  | nop => exact absurd rfl h
  | opbClr => exact ⟨.opbClr, rfl, rfl, by decide +kernel⟩
  | opbPush _ => exact ⟨.opbPush 0, rfl, rfl, by decide +kernel⟩
  | opbFromRbuf => exact ⟨.opbFromRbuf, rfl, rfl, by decide +kernel⟩
  | destSet _ _ => exact ⟨.destSet 0 1, rfl, rfl, by decide +kernel⟩
  | csumClr => exact ⟨.csumClr, rfl, rfl, by decide +kernel⟩
  | csumAdd _ => exact ⟨.csumAdd 1, rfl, rfl, by decide +kernel⟩
  | csumRead => exact ⟨.csumRead, rfl, rfl, by decide +kernel⟩
  | csumBuf => exact ⟨.csumBuf, rfl, rfl, by decide +kernel⟩
  | fvCheck _ => exact ⟨.fvCheck 2, rfl, rfl, by decide +kernel⟩
  | encAt _ => exact ⟨.encAt 2, rfl, rfl, by decide +kernel⟩
  | encTx => exact ⟨.encTx, rfl, rfl, by decide +kernel⟩
  | inPush _ => exact ⟨.inPush 0, rfl, rfl, by decide +kernel⟩
  | inAppend => exact ⟨.inAppend, rfl, rfl, by decide +kernel⟩
  | parse => exact ⟨.parse, rfl, rfl, by decide +kernel⟩
  | extract => exact ⟨.extract, rfl, rfl, by decide +kernel⟩
  | outPop => exact ⟨.outPop, rfl, rfl, by decide +kernel⟩
  | fiSize => exact ⟨.fiSize, rfl, rfl, by decide +kernel⟩
  | fiType => exact ⟨.fiType, rfl, rfl, by decide +kernel⟩
  | fiAtvsz => exact ⟨.fiAtvsz, rfl, rfl, by decide +kernel⟩
  | fiAtval => exact ⟨.fiAtval, rfl, rfl, by decide +kernel⟩
  | fiAtcmd => exact ⟨.fiAtcmd, rfl, rfl, by decide +kernel⟩
  | fiAtstat => exact ⟨.fiAtstat, rfl, rfl, by decide +kernel⟩
  | fiRxpay => exact ⟨.fiRxpay, rfl, rfl, by decide +kernel⟩
  | pktCount _ => exact ⟨.pktCount 0, rfl, rfl, by decide +kernel⟩

end Sys2Proof.Machine
end

section
/-! SUPPORT. Running commands one after another, and what a row of OPB_PUSH or DEST_SET commands leaves behind
(30_encoding.md R78). -/

namespace Sys2Proof.Machine

theorem runCommands_cons_of_next {i : Instr} {s t : State} (h : exec i s = .next t) (is : List Instr) :
    runCommands (i :: is) s = runCommands is t := by
  rw [runCommands, h]

theorem runCommands_append_of_next {is : List Instr} {s t : State} (h : runCommands is s = .next t)
    (js : List Instr) : runCommands (is ++ js) s = runCommands js t := by
  induction is generalizing s with
  | nil => rw [← Host.Outcome.next.inj h, List.nil_append]
  | cons i is ih =>
    obtain ⟨s', hs', -⟩ := exec_leaves i s
    rw [runCommands_cons_of_next hs'] at h
    rw [List.cons_append, runCommands_cons_of_next hs', ih h]

/-- STATUS does not matter to a row of commands, since its first command does not read it (10_state.md R22). -/
theorem runCommands_endOk {is : List Instr} (h : is ≠ []) (s : State) : runCommands is s.endOk = runCommands is s := by
  cases is with
  | nil => exact absurd rfl h
  | cons i is =>
    obtain ⟨t, ht, -⟩ := exec_leaves i s
    have ht' : exec i s.endOk = .next t := (noCommandReadsStatus i s _).trans ht
    rw [runCommands_cons_of_next ht, runCommands_cons_of_next ht']

theorem exec_opbPush_of_lt {s : State} (h : s.oplen < 128) (a : Byte) :
    exec (.opbPush a) s = .next (s.pushOperand a).endOk := by
  rw [exec, execOpbPush, if_neg (Nat.ne_of_lt h)]

theorem exec_destSet_of_lt {index : Imm} (h : index.toNat < 8) (a : Byte) (s : State) :
    exec (.destSet index a) s = .next { s with dest := s.dest.setIfInBounds index.toNat a, status := 0x00 } := by
  rw [exec, execDestSet, if_pos h]
  rfl

theorem exec_inAppend_of_le {s : State} (h : s.inCount + s.oplen ≤ s.params.inCap) :
    exec .inAppend s = .next (s.appendInput s.operand).endOk := by
  rw [exec, execInAppend, if_neg (Nat.not_lt.2 h)]

/-- Pushes that fit append their bytes to the operand string. -/
theorem runCommands_opbPushes (bs : List Byte) : ∀ s : State, s.oplen + bs.length ≤ 128 →
    ∃ t, runCommands (bs.map .opbPush) s.endOk = .next t ∧ t.operand = s.operand ++ bs ∧
      t = { s with opbuf := t.opbuf, oplen := s.oplen + bs.length, status := 0x00 } := by
  induction bs with
  | nil => exact fun s _ => ⟨s.endOk, rfl, (List.append_nil _).symm, rfl⟩
  | cons b bs ih =>
    intro s h
    rw [List.length_cons] at h
    have hlt : s.oplen < 128 := by omega
    obtain ⟨t, hrun, hoperand, hframe⟩ := ih (s.pushOperand b) (by rw [State.pushOperand_oplen]; omega)
    refine ⟨t, ?_, ?_, ?_⟩
    · rw [List.map_cons, runCommands_cons_of_next (exec_opbPush_of_lt (s := s.endOk) hlt b)]
      exact hrun
    · rw [hoperand, operand_pushOperand hlt, List.append_assoc, List.singleton_append]
    · rw [List.length_cons, Nat.add_comm bs.length, ← Nat.add_assoc]
      exact hframe

/-- DEST_SET commands for the indices from k on write their bytes after the first k bytes of DEST. -/
theorem runCommands_destSets (ds : List Byte) : ∀ (k : Nat) (s : State), k + ds.length ≤ 8 →
    ∃ t, runCommands (ds.mapIdx fun i d => .destSet (BitVec.ofNat 16 (i + k)) d) s.endOk = .next t ∧
      t.dest.toList.take (k + ds.length) = s.dest.toList.take k ++ ds ∧
      t = { s with dest := t.dest, status := 0x00 } := by
  induction ds with
  | nil => exact fun k s _ => ⟨s.endOk, rfl, (List.append_nil _).symm, rfl⟩
  | cons d ds ih =>
    intro k s h
    rw [List.length_cons] at h
    have hk : (BitVec.ofNat 16 k).toNat = k := by
      rw [BitVec.toNat_ofNat]
      omega
    have hset := exec_destSet_of_lt (index := BitVec.ofNat 16 k) (by omega) d s.endOk
    rw [hk] at hset
    obtain ⟨t, hrun, hdest, hframe⟩ := ih (k + 1) { s with dest := s.dest.setIfInBounds k d } (by omega)
    have hidx : ∀ i, i + 1 + k = i + (k + 1) := fun i => by omega
    refine ⟨t, ?_, ?_, hframe⟩
    · simp only [List.mapIdx_cons, Nat.zero_add, hidx]
      rw [runCommands_cons_of_next hset]
      exact hrun
    · rw [List.length_cons, Nat.add_comm ds.length, ← Nat.add_assoc, hdest,
        take_setIfInBounds _ _ _ (by omega), List.append_assoc, List.singleton_append]

/-- OPB_LOAD of at most 128 bytes. -/
theorem runCommands_opbLoad {bs : List Byte} (h : bs.length ≤ 128) (s : State) :
    ∃ t, runCommands (opbLoad bs) s = .next t ∧ t.operand = bs ∧
      t = { s with opbuf := t.opbuf, oplen := bs.length, status := 0x00 } := by
  obtain ⟨t, hrun, hoperand, hframe⟩ := runCommands_opbPushes bs { s with oplen := 0 } (by simpa using h)
  refine ⟨t, hrun, hoperand, ?_⟩
  rwa [Nat.zero_add] at hframe

/-- DEST_LOAD of eight bytes: the first DEST_SET ends with OK, so the status before it does not matter. -/
theorem runCommands_destLoad {ds : List Byte} (h : ds.length = 8) (s : State) :
    ∃ t, runCommands (destLoad ds) s = .next t ∧ t.dest.toList = ds ∧
      t = { s with dest := t.dest, status := 0x00 } := by
  obtain ⟨t, hrun, hdest, hframe⟩ := runCommands_destSets ds 0 s (by omega)
  have hne : destLoad ds ≠ [] := List.ne_nil_of_length_pos (by simp [destLoad, h])
  refine ⟨t, (runCommands_endOk hne s).symm.trans hrun, ?_, hframe⟩
  rwa [h, List.take_of_length_le (by simp), List.take_zero, List.nil_append] at hdest

/-- IN_LOAD of bytes that fit: they are the operand string that IN_APPEND appends. -/
theorem runCommands_inLoad {bs : List Byte} {s : State} (hlen : bs.length ≤ 128) (hinv : s.Inv)
    (hfit : s.inCount + bs.length ≤ s.params.inCap) :
    ∃ t, runCommands (inLoad bs) s = .next t ∧ t.buffered = s.buffered ++ bs ∧ t.status = 0x00 := by
  obtain ⟨t, hrun, hoperand, hframe⟩ := runCommands_opbLoad hlen s
  have ht : t.Inv ∧ t.buffered = s.buffered ∧ t.inCount = s.inCount ∧ t.params = s.params ∧ t.oplen = bs.length := by
    rw [hframe]
    exact ⟨{ hinv with status := ⟨.ok, rfl⟩, oplen := hlen }, rfl, rfl, rfl, rfl⟩
  obtain ⟨htinv, hbuffered, hcount, hparams, hoplen⟩ := ht
  have htfit : t.inCount + bs.length ≤ t.params.inCap := by rwa [hcount, hparams]
  refine ⟨(t.appendInput bs).endOk, ?_, ?_, rfl⟩
  · have happend := exec_inAppend_of_le (hoplen ▸ htfit)
    rw [inLoad, runCommands_append_of_next hrun, runCommands_cons_of_next happend, hoperand]
    rfl
  · exact (buffered_appendInput htinv bs htfit).trans (by rw [hbuffered])

end Sys2Proof.Machine
end

section
/-! SUPPORT. What the frame inspector reads in a frame of the layout of 30_encoding.md R80 (45_inspector.md). -/

namespace Sys2Proof.Machine

/-! ## The fields of a frame -/

theorem be16_mkFrame {type : Byte} {body : List Byte} (h : body.length < 65535) :
    be16 (mkFrame type body) 1 = 1 + body.length := by
  simp [be16, byteAt, mkFrame, hi8, lo8]
  omega

theorem totalSize_mkFrame {type : Byte} {body : List Byte} (h : body.length < 65535) :
    totalSize (mkFrame type body) = 5 + body.length := by
  rw [totalSize, be16_mkFrame h]
  omega

theorem byteAt_mkFrame_type (type : Byte) (body : List Byte) : byteAt (mkFrame type body) 3 = type := rfl

/-- The part of the body after its first bytes `pre`. -/
theorem slice_mkFrame (type : Byte) (pre rest : List Byte) :
    slice (mkFrame type (pre ++ rest)) (4 + pre.length) (4 + pre.length + rest.length) = rest := by
  have hdrop : (mkFrame type (pre ++ rest)).drop (4 + pre.length) = rest ++ [checksum (type :: (pre ++ rest))] := by
    rw [← List.drop_drop]
    simp [mkFrame]
  rw [slice, hdrop, Nat.add_sub_cancel_left, List.take_left]

/-- Every field's wire bytes are looked up as its id (R84, R221). -/
theorem lookup_wire (f : AtField) : lookup (wire f).1 (wire f).2 = fieldId f := by
  cases f <;> rfl

/-! ## A field that the frame holds is read with OK -/

variable {s : State} {held : Prop} [Decidable held]

theorem inspect_reads {value n : Nat} (h : held) (hvalue : value = n) (hn : n < 2 ^ 32) :
    ∃ t, (.next (s.inspect held value) : Host.Outcome State Fault Refusal) = .next t ∧ t.status = 0x00 ∧
      t.result.toNat = n := by
  subst hvalue
  refine ⟨_, rfl, ?_⟩
  rw [State.inspect, if_pos h]
  exact ⟨rfl, Nat.mod_eq_of_lt hn⟩

theorem inspectString_reads {value bs : List Byte} (h : held) (hvalue : value = bs) (hbs : bs.length ≤ 128) :
    ∃ t, (.next (s.inspectString held value) : Host.Outcome State Fault Refusal) = .next t ∧ t.status = 0x00 ∧
      t.resultString = bs := by
  subst hvalue
  refine ⟨_, rfl, ?_⟩
  rw [State.inspectString, if_pos h]
  obtain ⟨hstring, -⟩ := writes_of_writeResultString (s := s) hbs
  exact ⟨rfl, hstring⟩

variable {type : Byte} {body : List Byte}

/-- FI_SIZE of any frame that OPBUF can hold. -/
theorem exec_fiSize_mkFrame (hf : s.operand = mkFrame type body) (hlen : s.oplen = 5 + body.length)
    (hbody : body.length ≤ 123) :
    ∃ t, exec .fiSize s = .next t ∧ t.status = 0x00 ∧ t.result.toNat = 5 + body.length :=
  inspect_reads (by omega) (by rw [hf, totalSize_mkFrame (by omega)]) (by omega)

/-- FI_TYPE of any frame. -/
theorem exec_fiType_mkFrame (hf : s.operand = mkFrame type body) (hlen : s.oplen = 5 + body.length) :
    ∃ t, exec .fiType s = .next t ∧ t.status = 0x00 ∧ t.result.toNat = type.toNat :=
  inspect_reads (by omega) (by rw [hf, byteAt_mkFrame_type]) (by omega)

end Sys2Proof.Machine
end

section
/-! PROOFS. The statements about command words, assembler lines and frame layouts (30_encoding.md). -/

namespace Sys2Proof.Machine

/-- Settles O2: the fields of a command's word are its opcode and operands, the opcode's row of R74 is the command, and
no check of R71 fails. -/
theorem decodeInvertsEncode : Obligations.DecodeInvertsEncode := by
  intro i hwf
  rw [decode_encode, if_neg (by simp [hwf])]

/-- Settles O3: a row of R74 whose reserved fields are zero fixes every field of the word. -/
theorem decodedWordIsTheCommandsWord : Obligations.DecodedWordIsTheCommandsWord :=
  fun w i => (decode_eq_ok_iff w i).1

/-- Settles O4: the points of R75 are the failures of the checks of R71, an undecoded word raises ILLEGAL, and in
`busyState` each opcode but NOP's has a command that changes another register. -/
theorem illegalWordsRaiseIllegalOnly : Obligations.IllegalWordsRaiseIllegalOnly := by
  refine ⟨illegalWord_iff_not_decoded, fun s w rest hp hw => ?_, rfl, fun _ => rfl, fun i _ hop => ?_⟩
  · rw [step_of_pending hp, serve_write, issue_of_illegalWord hw]
    rfl
  · obtain ⟨j, hopcode, hwf, hworks⟩ := exists_working_command i hop
    obtain ⟨t, ht, hne⟩ := exists_of_worksOn hworks
    exact ⟨j, busyState, t, hopcode, hwf, ht, hne⟩

/-- Settles O16: the pushes and the DEST_SETs fill their registers byte by byte, and IN_APPEND then appends the operand
string. -/
theorem pseudoInstructionsLoadTheirBytes : Obligations.PseudoInstructionsLoadTheirBytes :=
  ⟨fun _ s h => runCommands_opbLoad h s, fun _ s h => runCommands_destLoad h s,
    fun _ _ hlen hinv hfit => runCommands_inLoad hlen hinv hfit⟩

/-- Settles O46: the frame's bytes stand where the inspector's commands read them, its LENGTH is |v| + 5, and the value
is what the body holds after four bytes. -/
theorem inspectorReadsBackAResponse : Obligations.InspectorReadsBackAResponse := by
  intro s id st fld v hv hf hlen
  have hbody : ([id, (wire fld).1, (wire fld).2, st] ++ v).length = 4 + v.length := by
    rw [List.length_append, List.length_cons]
    rfl
  have hbe : be16 s.operand 1 = 5 + v.length := by
    rw [hf, atResponseFrame, be16_mkFrame (by omega)]
    omega
  have hvs : be16 s.operand 1 - 5 = v.length := by omega
  have hsize := exec_fiSize_mkFrame hf (by omega) (by omega)
  rw [hbody, ← Nat.add_assoc] at hsize
  refine ⟨hsize, exec_fiType_mkFrame hf (by omega), ?fiAtcmd, ?fiAtstat, ?fiAtvsz, ?fiAtval⟩
  case fiAtcmd =>
    have hname : lookup (byteAt s.operand 5) (byteAt s.operand 6) = fieldId fld := by
      rw [hf]
      exact lookup_wire fld
    exact inspect_reads (by omega) (congrArg BitVec.toNat hname) (by omega)
  case fiAtstat =>
    have hstatus : byteAt s.operand 7 = st := by
      rw [hf]
      rfl
    exact inspect_reads (by omega) (congrArg BitVec.toNat hstatus) (by omega)
  case fiAtvsz => exact inspect_reads (by omega) hvs (by omega)
  case fiAtval =>
    have hvalue : slice s.operand 8 (8 + (be16 s.operand 1 - 5)) = v := by
      rw [hvs, hf]
      exact slice_mkFrame _ [id, (wire fld).1, (wire fld).2, st] v
    exact inspectString_reads (by omega) hvalue (by omega)

/-- Settles O47: the payload is what the body holds after the eight address bytes, the two reserved bytes and the
options. -/
theorem inspectorReadsBackAReceivedPacket : Obligations.InspectorReadsBackAReceivedPacket := by
  intro s addr r0 r1 opts payload hp hf hlen
  have hpre : (addr.toList ++ [r0, r1, opts]).length = 11 := by simp
  have hbody : (addr.toList ++ [r0, r1, opts] ++ payload).length = 11 + payload.length := by
    rw [List.length_append, hpre]
  have hsize := exec_fiSize_mkFrame hf (by omega) (by omega)
  rw [hbody, ← Nat.add_assoc] at hsize
  have ht : totalSize s.operand = 16 + payload.length := by
    rw [hf, receivePacketFrame, totalSize_mkFrame (by omega), hbody, ← Nat.add_assoc]
  have hpayload : slice s.operand 15 (totalSize s.operand - 1) = payload := by
    have hslice := slice_mkFrame Config.typeReceivePacket (addr.toList ++ [r0, r1, opts]) payload
    rwa [hpre, ← receivePacketFrame, ← hf, show 4 + 11 + payload.length = totalSize s.operand - 1 by omega] at hslice
  exact ⟨hsize, exec_fiType_mkFrame hf (by omega), inspectString_reads (by omega) hpayload (by omega)⟩

/-- Settles O1: each word's fields are numerals, and the decoder computes on them. -/
theorem specWordsDecodeToTheirCommands : Obligations.SpecWordsDecodeToTheirCommands := by
  unfold Obligations.SpecWordsDecodeToTheirCommands
  decide

/-- Settles O17: each line is a text the assembler computes on. -/
theorem assemblerReadsTheSpecsLines : Obligations.AssemblerReadsTheSpecsLines := by
  unfold Obligations.AssemblerReadsTheSpecsLines
  decide +kernel

end Sys2Proof.Machine
end

section
/-! SUPPORT. The words of the operand port's commands, and what each command does in the cases of its rule
(40_operand_port.md R101 to R105). -/

namespace Sys2Proof

/-- A word whose opcode selects a command, but which is not that command's word, sets a field its format reserves. -/
theorem decode_eq_reservedFieldNonZero {w : Word} {f : Format} {i : Instr}
    (hmap : opcodeMap (opField w) (aField w) (immField w) = some (f, i)) (hne : encode i ≠ w) :
    decode w = .error .reservedFieldNonZero := by
  obtain ⟨hop, -, hfields⟩ := opcodeMap_eq_some hmap
  have hres : f.reservedZero (aField w) (immField w) = false := by
    rw [← Bool.not_eq_true, hfields]
    rintro ⟨ha, himm⟩
    exact hne (encode_eq_of_fields hop ha.symm himm.symm)
  rw [decode, hmap]
  exact if_pos hres

theorem encode_opbPush (a : Byte) : encode (.opbPush a) = BitVec.ofNat 32 (a.toNat * 0x100 + 0x02) := by
  simp [encode, Instr.immOperand, Instr.aOperand, Instr.opcode]

/-- DEST_SET's word fails the check of its index or none (R71, R105). -/
theorem decode_destSet (index : Imm) (a : Byte) :
    decode (BitVec.ofNat 32 (index.toNat * 0x10000 + a.toNat * 0x100 + 0x04)) =
      if index.toNat < 8 then .ok (.destSet index a) else .error .operandOutOfRange := by
  refine (decode_encode (.destSet index a)).trans ?_
  by_cases h : index.toNat < 8 <;> simp [Instr.wellFormed, h]

end Sys2Proof

namespace Sys2Proof.Machine

theorem operand_of_oplen_eq_zero {s : State} (h : s.oplen = 0) : s.operand = [] := by
  rw [State.operand, h, List.take_zero]

/-- OPBUF reads 0 at every index while the operand string is empty (R53). -/
theorem hostRead_operandByte_of_empty {s : State} (h : s.operand = []) (i : Fin 128) :
    hostRead s (0x200 + 4 * i.val) = 0 := by
  rw [hostRead_operandByte, h]
  rfl

theorem exec_opbPush_of_full {s : State} (h : s.oplen = 128) (a : Byte) :
    exec (.opbPush a) s = .next (s.raise .full) := by
  rw [exec, execOpbPush, if_pos h]

/-- A string that fits OPBUF becomes the operand string. -/
theorem operand_writeOperand_of_le (s : State) {bs : List Byte} (h : bs.length ≤ 128) :
    (s.writeOperand bs).operand = bs := by
  rw [operand_writeOperand, List.take_of_length_le h]

end Sys2Proof.Machine
end

section
/-! PROOFS. The statements about the operand port (40_operand_port.md). -/

namespace Sys2Proof.Machine

/-- Settles O13: the word is the command's own, and a push that fits extends the operand string by its byte. -/
theorem opbPushAppendsOneByteOrRaisesFull : Obligations.OpbPushAppendsOneByteOrRaisesFull := by
  intro a
  refine ⟨?word, fun s => ⟨fun hfull => exec_opbPush_of_full hfull a, fun hlt => ?_⟩⟩
  case word => rw [← encode_opbPush, decodeInvertsEncode _ rfl]
  exact ⟨_, exec_opbPush_of_lt hlt a, rfl, operand_pushOperand hlt a⟩

/-- Settles O14: the result string has RLEN bytes, so it fits OPBUF, and storing it at the front leaves the bytes from
RLEN on. -/
theorem opbFromRbufCopiesTheResultString : Obligations.OpbFromRbufCopiesTheResultString := by
  refine ⟨decodeInvertsEncode .opbFromRbuf rfl, fun s h => ?_⟩
  have hlen : s.resultString.length = s.rlen := length_resultString h
  refine ⟨(s.writeOperand s.resultString).endOk, rfl, operand_writeOperand_of_le s (by omega), fun i hi hle => ?kept,
    ?frame⟩
  case kept => exact getElem_storeFront _ _ _ hi (by omega)
  case frame =>
    rw [State.writeOperand, hlen]
    rfl

/-- Settles O11: NOP's own word is 0, and another word of its opcode sets A or IMM. -/
theorem nopWritesStatusOnly : Obligations.NopWritesStatusOnly := by
  refine ⟨decodeInvertsEncode .nop rfl, fun _ => rfl, fun w hw hne => ?_⟩
  have hop : opField w = 0x00 := BitVec.eq_of_toNat_eq ((toNat_opField w).trans hw)
  exact decode_eq_reservedFieldNonZero (i := .nop) (by rw [hop]; rfl) hne.symm

/-- Settles O12: with OPLEN = 0 the operand string is empty, and no byte of OPBUF is in sight. -/
theorem opbClrEmptiesTheOperandString : Obligations.OpbClrEmptiesTheOperandString := by
  refine ⟨decodeInvertsEncode .opbClr rfl, fun s => ?_⟩
  have hempty : ({ s with oplen := 0, status := 0x00 } : State).operand = [] := operand_of_oplen_eq_zero rfl
  exact ⟨_, rfl, rfl, hempty, hostRead_operandByte_of_empty hempty⟩

/-- Settles O15: the check of DEST_SET's index is the only one its word can fail. -/
theorem destSetWritesOneAddressByte : Obligations.DestSetWritesOneAddressByte := by
  intro index a
  rw [decode_destSet]
  exact ⟨fun hlt => ⟨if_pos hlt, exec_destSet_of_lt hlt a⟩, fun hle => if_neg (Nat.not_lt.2 hle)⟩

end Sys2Proof.Machine
end

section
/-! SUPPORT. The checksum function through the sum of a string's bytes, and what the checksum unit's commands and a row
of them leave behind (41_checksum.md R120 to R126, 30_encoding.md R78). -/

namespace Sys2Proof.Machine

/-! ## The checksum function -/

theorem byteSum_cons (b : Byte) (s : List Byte) : byteSum (b :: s) = b.toNat + byteSum s := by
  simp [byteSum]

theorem byteSum_append (s t : List Byte) : byteSum (s ++ t) = byteSum s + byteSum t := by
  simp [byteSum]

theorem byteSum_eq_of_perm {s t : List Byte} (h : s.Perm t) : byteSum s = byteSum t :=
  (h.map BitVec.toNat).sum_eq

theorem toNat_checksum (s : List Byte) : (checksum s).toNat = 0xFF - byteSum s % 256 := by
  rw [checksum, BitVec.toNat_ofNat]
  omega

theorem toNat_checksum_setWidth (s : List Byte) : ((checksum s).setWidth 32).toNat = (checksum s).toNat :=
  BitVec.toNat_setWidth_of_le (by decide)

/-- The checksum is the complement of the sum as a byte (R121). -/
theorem checksum_eq_not_ofNat (s : List Byte) : checksum s = ~~~ BitVec.ofNat 8 (byteSum s) := by
  apply BitVec.eq_of_toNat_eq
  rw [toNat_checksum, BitVec.toNat_not, BitVec.toNat_ofNat]

theorem checksum_congr {s t : List Byte} (h : byteSum s % 256 = byteSum t % 256) : checksum s = checksum t := by
  rw [checksum, checksum, h]

/-! ## The commands -/

theorem encode_csumAdd (a : Byte) : encode (.csumAdd a) = BitVec.ofNat 32 (a.toNat * 0x100 + 0x11) := by
  simp [encode, Instr.immOperand, Instr.aOperand, Instr.opcode]

theorem exec_csumAdd (a : Byte) (s : State) :
    exec (.csumAdd a) s = .next { s with acc := s.acc + a, status := 0x00 } := rfl

/-- 0xFF − ACC is the complement of ACC, and needs no more than its eight bits. -/
theorem toNat_not_setWidth (a : Byte) : ((~~~ a).setWidth 32).toNat = 0xFF - a.toNat := by
  rw [BitVec.toNat_setWidth_of_le (by decide), BitVec.toNat_not]

theorem exec_csumRead (s : State) :
    exec .csumRead s = .next { s with result := (~~~ s.acc).setWidth 32, status := 0x00 } := by
  have hword : BitVec.ofNat 32 (0xFF - s.acc.toNat) = (~~~ s.acc).setWidth 32 := by
    rw [← toNat_not_setWidth, BitVec.ofNat_toNat, BitVec.setWidth_eq]
  rw [exec, execCsumRead, hword]
  rfl

/-! ## Rows of commands -/

/-- Additions add the sum of their bytes to ACC, modulo 256. -/
theorem runCommands_csumAdds (bs : List Byte) : ∀ s : State,
    runCommands (bs.map .csumAdd) s.endOk =
      .next { s with acc := s.acc + BitVec.ofNat 8 (byteSum bs), status := 0x00 } := by
  induction bs with
  | nil =>
    intro s
    have hacc : s.acc + BitVec.ofNat 8 (byteSum []) = s.acc := BitVec.add_zero _
    rw [hacc]
    rfl
  | cons b bs ih =>
    intro s
    have hacc : s.acc + BitVec.ofNat 8 (byteSum (b :: bs)) = s.acc + b + BitVec.ofNat 8 (byteSum bs) := by
      rw [byteSum_cons, BitVec.ofNat_add, BitVec.ofNat_toNat, BitVec.setWidth_eq, BitVec.add_assoc]
    rw [List.map_cons, runCommands_cons_of_next (exec_csumAdd b s.endOk), hacc]
    exact ih { s with acc := s.acc + b }

/-- CSUM_OF: the additions start from ACC = 0, so CSUM_READ reads the complement of the bytes' sum. -/
theorem runCommands_csumOf (bs : List Byte) (s : State) :
    runCommands (csumOf bs) s = .next { s with
      acc := BitVec.ofNat 8 (byteSum bs), result := (checksum bs).setWidth 32, status := 0x00 } := by
  have hadds : runCommands (.csumClr :: bs.map .csumAdd) s =
      .next { s with acc := BitVec.ofNat 8 (byteSum bs), status := 0x00 } := by
    have hacc : (0x00 : Byte) + BitVec.ofNat 8 (byteSum bs) = BitVec.ofNat 8 (byteSum bs) := BitVec.zero_add _
    rw [← hacc]
    exact runCommands_csumAdds bs { s with acc := 0x00 }
  rw [csumOf, runCommands_append_of_next hadds, runCommands_cons_of_next (exec_csumRead _), checksum_eq_not_ofNat]
  rfl

end Sys2Proof.Machine
end

section
/-! PROOFS. The statements about the checksum unit (41_checksum.md). -/

namespace Sys2Proof.Machine

/-- Settles O18: the checksum depends on a string only through its byte sum modulo 256, and the sum is that of a
permutation and adds up over an append. -/
theorem checksumFunctionAndItsLaws : Obligations.ChecksumFunctionAndItsLaws := by
  refine ⟨toNat_checksum, rfl, fun s => ?complement, fun s => ?addsUp,
    fun s t hperm => checksum_congr (by rw [byteSum_eq_of_perm hperm]), fun s s' t hsum => checksum_congr ?append⟩
  case complement =>
    have hmod : BitVec.ofNat 8 (byteSum s % 256) = BitVec.ofNat 8 (byteSum s) :=
      BitVec.eq_of_toNat_eq (by simp)
    exact (checksum_eq_not_ofNat s).trans (congrArg (~~~ ·) hmod.symm)
  case addsUp =>
    rw [toNat_checksum, byteSum]
    omega
  case append =>
    rw [byteSum_append, byteSum_append]
    exact Nat.ModEq.add_right _ hsum

/-- Settles O19: each word is its command's own, and the addition of bytes wraps modulo 256. -/
theorem checksumUnitCommands : Obligations.ChecksumUnitCommands := by
  refine ⟨⟨decodeInvertsEncode .csumClr rfl, fun _ => rfl⟩, fun a => ⟨?addWord, fun s => ?add⟩,
    decodeInvertsEncode .csumBuf rfl, fun s => ⟨_, rfl, ?buf, rfl⟩⟩
  case addWord => rw [← encode_csumAdd, decodeInvertsEncode _ rfl]
  case add =>
    have hacc : s.acc + a = BitVec.ofNat 8 ((s.acc.toNat + a.toNat) % 256) :=
      BitVec.eq_of_toNat_eq (by simp)
    rw [exec_csumAdd, hacc]
  case buf => exact (toNat_checksum_setWidth _).trans (toNat_checksum _)

/-- Settles O20: CSUM_READ's word is its own, it reads the complement of ACC, and the row of CSUM_OF is run command by
command. -/
theorem csumReadLeavesTheChecksumOfTheBytesAdded : Obligations.CsumReadLeavesTheChecksumOfTheBytesAdded := by
  refine ⟨decodeInvertsEncode .csumRead rfl, fun s => ⟨_, exec_csumRead s, toNat_not_setWidth s.acc, rfl⟩,
    fun bs s => ⟨_, runCommands_csumOf bs s, toNat_checksum_setWidth bs, ?empty, BitVec.toNat_ofNat _ _, rfl⟩⟩
  case empty =>
    rintro rfl
    rfl

end Sys2Proof.Machine
end

section
/-! SUPPORT. The words of FV_CHECK and ENC_AT, what a legal value is, and the frames the encoder writes
(42_encoder.md R140 to R153). -/

namespace Sys2Proof

/-! ## The words -/

theorem encode_fvCheck (f : Byte) : encode (.fvCheck f) = BitVec.ofNat 32 (f.toNat * 0x100 + 0x20) := by
  simp [encode, Instr.immOperand, Instr.aOperand, Instr.opcode]

theorem encode_encAt (f : Byte) : encode (.encAt f) = BitVec.ofNat 32 (f.toNat * 0x100 + 0x21) := by
  simp [encode, Instr.immOperand, Instr.aOperand, Instr.opcode]

/-- The word of a command with a field operand fails the check of its field id or none (R71). -/
theorem decode_of_field {i : Instr} {w : Word} {f : Byte} (hword : encode i = w)
    (hwf : i.wellFormed = decide (f.toNat < 12)) :
    (f.toNat < 12 → decode w = .ok i) ∧ (12 ≤ f.toNat → decode w = .error .operandOutOfRange) := by
  rw [← hword, decode_encode, hwf]
  exact ⟨fun hlt => if_neg (by simp [hlt]), fun hle => if_pos (by simp [hle])⟩

end Sys2Proof

namespace Sys2Proof.Machine

theorem fieldOfId_fieldId (fld : AtField) : fieldOfId (fieldId fld) = some fld := by
  cases fld <;> rfl

/-! ## Legal values -/

/-- The little-endian magnitude as the sum of R11. -/
theorem leMag_eq_sum (v : List Byte) :
    leMag v = (Finset.range v.length).sum fun j => (byteAt v j).toNat * 256 ^ j := by
  induction v with
  | nil => rfl
  | cons b v ih =>
    have hshift (j : Nat) : (byteAt (b :: v) (j + 1)).toNat * 256 ^ (j + 1) =
        256 * ((byteAt v j).toNat * 256 ^ j) := by
      rw [pow_succ', Nat.mul_left_comm]
      rfl
    have hfirst : (byteAt (b :: v) 0).toNat * 256 ^ 0 = b.toNat := Nat.mul_one _
    rw [List.length_cons, Finset.sum_range_succ', hfirst, Finset.sum_congr rfl fun j _ => hshift j,
      ← Finset.mul_sum, ← ih, leMag, Nat.add_comm]

theorem numericRule_iff (v : List Byte) (lo hi : Nat) :
    numericRule v lo hi = true ↔ v.length ≤ 4 ∧ lo ≤ leMag v ∧ leMag v ≤ hi := by
  simp [numericRule, and_assoc]

theorem nameRule_iff (v : List Byte) : nameRule v = true ↔ v.length ≤ 20 ∧ ∀ b ∈ v, b.toNat ≤ 0x7F := by
  simp [nameRule]

/-- A rule that allows no value above the size cap of R140 is the whole of validity. -/
theorem valid_eq_decide {fld : AtField} {v : List Byte} {p : Prop} [Decidable p] (hrule : fieldRule fld v = true ↔ p)
    (hcap : p → v.length ≤ 120) : valid fld v = decide p := by
  rw [Bool.eq_iff_iff, decide_eq_true_iff, valid, Bool.and_eq_true, decide_eq_true_iff, hrule]
  exact and_iff_right_of_imp hcap

/-- The rule of SH, SL and WR (R144). -/
theorem valid_eq_decide_nil {fld : AtField} {v : List Byte} (hrule : fieldRule fld v = (v.length == 0)) :
    valid fld v = decide (v = []) := by
  refine valid_eq_decide ?_ ?_
  · rw [hrule, beq_iff_eq, List.length_eq_zero_iff]
  · rintro rfl
    exact Nat.zero_le _

/-! ## The layouts -/

variable {type : Byte} {body : List Byte}

/-- A frame of at most 128 bytes has a LENGTH high byte of 0 (30_encoding.md R80). -/
theorem mkFrame_of_le (h : body.length ≤ 123) : mkFrame type body =
    [0x7E, 0x00, BitVec.ofNat 8 (1 + body.length), type] ++ body ++ [checksum (type :: body)] := by
  have hhi : hi8 (1 + body.length) = 0x00 := by
    rw [hi8, Nat.div_eq_of_lt (by omega)]
    rfl
  rw [mkFrame, hhi]
  rfl

theorem atFrame_of_le (fld : AtField) {v : List Byte} (h : v.length ≤ 120) : atFrame fld v =
    [0x7E, 0x00, BitVec.ofNat 8 (4 + v.length), 0x08, 0x01, (wire fld).1, (wire fld).2] ++ v ++
      [checksum ([0x08, 0x01, (wire fld).1, (wire fld).2] ++ v)] := by
  have hbody : 1 + (atBody fld v).length = 4 + v.length := by
    simp [atBody]
    omega
  rw [atFrame, mkFrame_of_le (by omega), hbody]
  rfl

theorem txFrame_of_le {d p : List Byte} (hd : d.length = 8) (h : p.length ≤ 65) : txFrame d p =
    [0x7E, 0x00, BitVec.ofNat 8 (14 + p.length), 0x10, 0x01] ++ d ++ [0xFF, 0xFE, 0x00, 0xC0] ++ p ++
      [checksum ([0x10, 0x01] ++ d ++ [0xFF, 0xFE, 0x00, 0xC0] ++ p)] := by
  have hbody : 1 + (txBody d p).length = 14 + p.length := by
    simp [txBody, hd]
    omega
  rw [txFrame, mkFrame_of_le (by omega), hbody]
  rfl

/-- Every frame of the layout of R80 that fits is one the encoder may write (R153). -/
theorem wireFrame_mkFrame (h : body.length ≤ 123) : WireFrame (mkFrame type body) := by
  have hlast : (mkFrame type body).length - 1 = 4 + body.length := by
    rw [length_mkFrame]
    omega
  refine ⟨rfl, ⟨?length, ?checksum⟩, ?fits⟩
  case length =>
    rw [be16_mkFrame (by omega), length_mkFrame]
    omega
  case checksum =>
    have hchecked : slice (mkFrame type body) 3 (4 + body.length) = type :: body := by
      rw [slice, show 4 + body.length - 3 = (type :: body).length by rw [List.length_cons]; omega]
      exact List.take_left
    have hprefix : ([Config.startByte, hi8 (1 + body.length), lo8 (1 + body.length), type] ++ body).length =
        4 + body.length := by
      simp
      omega
    rw [hlast, hchecked, mkFrame, byteAt_append_right hprefix.le, hprefix, Nat.sub_self]
    rfl
  case fits =>
    rw [length_mkFrame]
    omega

/-- The part `mid` of a body that goes on after it. -/
theorem slice_mkFrame_middle (type : Byte) (pre mid post : List Byte) :
    slice (mkFrame type (pre ++ (mid ++ post))) (4 + pre.length) (4 + pre.length + mid.length) = mid := by
  have hrest := congrArg (List.take mid.length) (slice_mkFrame type pre (mid ++ post))
  rw [List.take_left] at hrest
  simpa [slice, List.take_take] using hrest

/-! ## The commands -/

variable {s t : State} {f : Byte} {fld : AtField}

theorem exec_fvCheck_of_field (hid : fieldOfId f = some fld) {b : Bool} (hvalid : valid fld s.operand = b) :
    exec (.fvCheck f) s = .next { s with result := if b then 1 else 0, status := 0x00 } := by
  rw [exec, execFvCheck, hid, ← hvalid]
  rfl

theorem exec_encAt_of_invalid (hid : fieldOfId f = some fld) (hvalid : valid fld s.operand = false) :
    exec (.encAt f) s = .next (s.raise .validationError) := by
  simp [exec, execEncAt, hid, hvalid]

theorem exec_encAt_of_valid (hid : fieldOfId f = some fld) (hvalid : valid fld s.operand = true) :
    exec (.encAt f) s = .next (s.writeResultString (atFrame fld s.operand)).endOk := by
  simp [exec, execEncAt, hid, hvalid]

theorem exec_encTx_of_gt (h : 65 < s.oplen) : exec .encTx s = .next (s.raise .payloadTooLarge) := by
  rw [exec, execEncTx, if_pos h]

theorem exec_encTx_of_le (h : s.oplen ≤ 65) :
    exec .encTx s = .next (s.writeResultString (txFrame s.dest.toList s.operand)).endOk := by
  rw [exec, execEncTx, if_neg (Nat.not_lt.2 h)]

/-- The frame of a legal value fits RBUF (R147). -/
theorem writes_atFrame (hvalid : valid fld s.operand = true) :
    WritesResultString s (s.writeResultString (atFrame fld s.operand)).endOk (atFrame fld s.operand) := by
  have hlen := length_le_of_valid hvalid
  exact writes_of_writeResultString (by rw [length_atFrame]; omega)

/-- The frame of a payload of at most 65 bytes fits RBUF (R148). -/
theorem writes_txFrame (h : s.oplen ≤ 65) :
    WritesResultString s (s.writeResultString (txFrame s.dest.toList s.operand)).endOk
      (txFrame s.dest.toList s.operand) :=
  writes_of_writeResultString (by rw [length_txFrame, Vector.length_toList, length_operand (by omega)]; omega)

/-- ENC_AT ends with OK on a legal value only. -/
theorem resultString_of_encAt_ok (hid : fieldOfId f = some fld) (hexec : exec (.encAt f) s = .next t)
    (hok : t.status = 0x00) : s.operand.length ≤ 120 ∧ t.resultString = atFrame fld s.operand := by
  cases hvalid : valid fld s.operand with
  | false =>
    rw [exec_encAt_of_invalid hid hvalid] at hexec
    obtain rfl := Host.Outcome.next.inj hexec
    exact absurd hok (by decide : statusCode .validationError ≠ 0x00)
  | true =>
    rw [exec_encAt_of_valid hid hvalid] at hexec
    obtain rfl := Host.Outcome.next.inj hexec
    obtain ⟨hstring, -⟩ := writes_atFrame hvalid
    exact ⟨length_le_of_valid hvalid, hstring⟩

/-- ENC_TX ends with OK on a payload of at most 65 bytes only. -/
theorem resultString_of_encTx_ok (hexec : exec .encTx s = .next t) (hok : t.status = 0x00) :
    s.oplen ≤ 65 ∧ t.resultString = txFrame s.dest.toList s.operand := by
  by_cases hle : s.oplen ≤ 65
  · rw [exec_encTx_of_le hle] at hexec
    obtain rfl := Host.Outcome.next.inj hexec
    obtain ⟨hstring, -⟩ := writes_txFrame hle
    exact ⟨hle, hstring⟩
  · rw [exec_encTx_of_gt (Nat.lt_of_not_le hle)] at hexec
    obtain rfl := Host.Outcome.next.inj hexec
    exact absurd hok (by decide : statusCode .payloadTooLarge ≠ 0x00)

end Sys2Proof.Machine
end

section
/-! PROOFS. The statements about the field validator and the encoder (42_encoder.md). -/

namespace Sys2Proof.Machine

/-- Settles O21: each field's own rule is the statement's condition, and the size cap shows only where the rule is a
parameter. -/
theorem fvCheckReportsValidity : Obligations.FvCheckReportsValidity := by
  refine ⟨fun f => decode_of_field (encode_fvCheck f) rfl, fun s => ?_⟩
  simp only [← leMag_eq_sum]
  have hid : valid .ID s.operand = decide (s.operand.length ≤ 2) :=
    valid_eq_decide decide_eq_true_iff fun h => by omega
  have hch := valid_eq_decide (fld := .CH) (numericRule_iff s.operand 0x0B 0x1A) fun h => by omega
  have hni := valid_eq_decide (fld := .NI) (nameRule_iff s.operand) fun h => by omega
  have hsm : valid .SM s.operand = decide (s.operand.length ≤ 4 ∧ leMag s.operand ≤ 0x08) :=
    valid_eq_decide ((numericRule_iff s.operand 0x00 0x08).trans (by simp)) fun h => by omega
  exact ⟨exec_fvCheck_of_field rfl hid, exec_fvCheck_of_field rfl hch, exec_fvCheck_of_field rfl hni,
    exec_fvCheck_of_field rfl hsm, exec_fvCheck_of_field (fld := .SN) rfl rfl,
    exec_fvCheck_of_field (fld := .SO) rfl rfl, exec_fvCheck_of_field (fld := .ST) rfl rfl,
    exec_fvCheck_of_field (fld := .SP) rfl rfl, exec_fvCheck_of_field (fld := .WH) rfl rfl,
    exec_fvCheck_of_field (fld := .SH) rfl (valid_eq_decide_nil rfl),
    exec_fvCheck_of_field (fld := .SL) rfl (valid_eq_decide_nil rfl),
    exec_fvCheck_of_field (fld := .WR) rfl (valid_eq_decide_nil rfl)⟩

/-- Settles O22: the rows are the fields with their ids and wire bytes, and the frame of a legal value fits RBUF. -/
theorem encAtBuildsTheFrameOrRejects : Obligations.EncAtBuildsTheFrameOrRejects := by
  refine ⟨fun f => decode_of_field (encode_encAt f) rfl, fun row hrow => ?_⟩
  obtain ⟨fld, -, rfl⟩ : ∃ fld ∈ allFields, (fieldId fld, fld, wire fld) = row := List.mem_map.1 hrow
  intro s hoplen
  refine ⟨exec_encAt_of_invalid (fieldOfId_fieldId fld), fun hvalid =>
    ⟨_, exec_encAt_of_valid (fieldOfId_fieldId fld) hvalid, ?_, ?_⟩⟩
  · have hbytes := atFrame_of_le fld (length_le_of_valid hvalid)
    rw [length_operand hoplen] at hbytes
    exact hbytes.subst (motive := WritesResultString s _) (writes_atFrame hvalid)
  · rw [State.endOk_rlen, State.writeResultString_rlen, length_atFrame, length_operand hoplen, Nat.add_comm]

/-- Settles O23: with at most 65 payload bytes the frame has at most 83, so it fits RBUF. -/
theorem encTxBuildsTheFrameOrRejects : Obligations.EncTxBuildsTheFrameOrRejects := by
  refine ⟨decodeInvertsEncode .encTx rfl, fun s => ⟨exec_encTx_of_gt, fun hle =>
    ⟨_, exec_encTx_of_le hle, ?string, ?rlen⟩⟩⟩
  all_goals have hoperand : s.operand.length = s.oplen := length_operand (by omega)
  case string =>
    have hbytes := txFrame_of_le (Vector.length_toList (xs := s.dest)) (hoperand.trans_le hle)
    rw [hoperand] at hbytes
    exact hbytes.subst (motive := WritesResultString s _) (writes_txFrame hle)
  case rlen =>
    rw [State.endOk_rlen, State.writeResultString_rlen, length_txFrame, Vector.length_toList, hoperand]
    omega

/-- Settles O24: an OK leaves the command's frame as the result string, and its parts stand in the body after the
FRAME_ID. -/
theorem encodedFramesAreWellFormedAndRoundTrip : Obligations.EncodedFramesAreWellFormedAndRoundTrip := by
  refine ⟨fun s t f fld _ hid hexec hok => ?atFrame, fun s t _ hexec hok => ?txFrame⟩
  case atFrame =>
    obtain ⟨hlen, hstring⟩ := resultString_of_encAt_ok hid hexec hok
    rw [hstring]
    exact ⟨wireFrame_mkFrame (by simp [atBody]; omega), rfl,
      slice_mkFrame _ [Config.frameId, (wire fld).1, (wire fld).2] s.operand⟩
  case txFrame =>
    obtain ⟨hle, hstring⟩ := resultString_of_encTx_ok hexec hok
    have hoperand : s.operand.length = s.oplen := length_operand (by omega)
    have hdest := slice_mkFrame_middle Config.typeTransmitRequest [Config.frameId] s.dest.toList
      ([0xFF, 0xFE, 0x00, 0xC0] ++ s.operand)
    have hpayload := slice_mkFrame Config.typeTransmitRequest
      ([Config.frameId] ++ s.dest.toList ++ [0xFF, 0xFE, 0x00, 0xC0]) s.operand
    rw [hstring]
    refine ⟨wireFrame_mkFrame (by simp [txBody]; omega), ?_, ?_⟩
    · simpa [txFrame, txBody] using hdest
    · simpa [txFrame, txBody] using hpayload

end Sys2Proof.Machine
end

section
/-! SUPPORT. What the scan of any mode can do, said once: it reads some first bytes of the span, emits the frames they
hold, and leaves the candidate after them, from which a later scan goes on (43_stream_parser.md R180 to R182). -/

namespace Sys2Proof.Machine

variable {z : Bool} {span p rest : List Byte} {r : ScanRegs}

/-! ## Where a loop stops -/

/-- Why a loop that began on candidate p stops between the bytes `pre` and `post`: no byte is left, the last byte read
completed a frame, or the next byte completes one (R170). -/
def StopsAt (z : Bool) (p pre post : List Byte) : ScanStop → Prop
  | .endOfSpan => post = []
  | .found => ∃ init b, pre = init ++ [b] ∧ (candStep z (candRun z p init).2 b).2 ≠ none
  | .outFull => ∃ b rest, post = b :: rest ∧ (candStep z (candRun z p pre).2 b).2 ≠ none

theorem StopsAt.cons {b : Byte} {pre post : List Byte} {stop : ScanStop}
    (h : StopsAt z (candStep z p b).1 pre post stop) : StopsAt z p (b :: pre) post stop := by
  cases stop with
  | endOfSpan => exact h
  | found =>
    obtain ⟨init, b', rfl, hstep⟩ := h
    exact ⟨b :: init, b', rfl, hstep⟩
  | outFull => exact h

/-- From c, reading candidate p, a loop over the bytes `bs` of a span that goes on with `tail` ends as c': it has read
some first bytes of them. -/
def Consumes (z : Bool) (span tail p bs : List Byte) (c c' : Scan) : Prop :=
  ∃ pre post, bs = pre ++ post ∧ c'.frames = c.frames ++ (candRun z p pre).1 ∧
    Reading span c'.regs (candRun z p pre).2 (post ++ tail) ∧ StopsAt z p pre post c'.stop

/-- A loop that goes on, as c₁, after a byte that adds to the frames what `candStep` emits. -/
theorem Consumes.cons {tail bs : List Byte} {b : Byte} {c c₁ c' : Scan}
    (h : Consumes z span tail (candStep z p b).1 bs c₁ c')
    (hframes : c₁.frames = c.frames ++ (candStep z p b).2.toList) : Consumes z span tail p (b :: bs) c c' := by
  obtain ⟨pre, post, rfl, hfs, hread, hend⟩ := h
  refine ⟨b :: pre, post, rfl, ?_, hread, hend.cons⟩
  rw [hfs, hframes, candRun_cons, List.append_assoc]

theorem loop_consumes (mode : ScanMode) (z : Bool) (span tail bs : List Byte) : ∀ (p : List Byte) (c : Scan),
    Reading span c.regs p (bs ++ tail) → c.stop = .endOfSpan →
      Consumes z span tail p bs c (Scan.loop mode z span c bs) := by
  induction bs with
  | nil =>
    intro p c hread hstop
    refine ⟨[], [], rfl, (List.append_nil _).symm, hread, ?_⟩
    rw [Scan.loop, hstop]
    rfl
  | cons b bs ih =>
    intro p c hread hstop
    obtain ⟨r', hread', hbyte⟩ := byte_sim mode z hread
    have goesOn (c₁ : Scan) (hc₁ : c.byte mode z span b = c₁) (hregs : c₁.regs = r')
        (hstop₁ : c₁.stop = .endOfSpan)
        (hframes : c₁.frames = c.frames ++ (candStep z p b).2.toList) :
        Consumes z span tail p (b :: bs) c (Scan.loop mode z span c (b :: bs)) := by
      rw [loop_cons, hc₁, if_pos hstop₁]
      exact (ih _ c₁ (hregs ▸ hread') hstop₁).cons hframes
    cases hstep : (candStep z p b).2 with
    | none =>
      rw [hstep] at hbyte goesOn
      exact goesOn _ hbyte rfl hstop (List.append_nil _).symm
    | some f =>
      rw [hstep] at hbyte goesOn
      cases mode with
      | all room =>
        by_cases hfull : c.frames.length = room
        · rw [loop_cons, hbyte.trans (if_pos hfull), if_neg (by simp)]
          exact ⟨[], b :: bs, rfl, (List.append_nil _).symm, hread, b, bs, rfl, by simp [hstep]⟩
        · exact goesOn _ (hbyte.trans (if_neg hfull)) rfl hstop rfl
      | first =>
        rw [loop_cons, hbyte, if_neg (by simp)]
        exact ⟨[b], bs, rfl, by simp [candRun_cons, hstep], hread', [], b, rfl, by simp [hstep]⟩

/-- The scan of any mode. -/
theorem scanSpan_consumes (mode : ScanMode) (z : Bool) (r : ScanRegs) (span : List Byte) :
    ∃ pre post, span = pre ++ post ∧ (scanSpan mode z r span).frames = (candRun z [] pre).1 ∧
      Reading span (scanSpan mode z r span).regs (candRun z [] pre).2 post ∧
      StopsAt z [] pre post (scanSpan mode z r span).stop := by
  have h := loop_consumes mode z span [] span [] ⟨r.start, [], .endOfSpan⟩
    (by simpa using reading_start r span) rfl
  simpa only [Consumes, scanSpan, List.append_nil, List.nil_append] using h

/-! ## The boundary and the candidate -/

theorem byteAt_drop (s : List Byte) (i j : Nat) : byteAt (s.drop i) j = byteAt s (i + j) := by
  simp [byteAt]

theorem Reading.byteAt_eq (h : Reading span r p rest) {j : Nat} (hj : j < p.length) :
    byteAt span (r.cb + j) = byteAt p j := by
  rw [← byteAt_drop, h.split, byteAt_append_left hj]

/-- R180's invariant outside SEEK_START: the candidate begins at CS with the one 0x7E it holds. -/
theorem Reading.atCandidate (h : Reading span r p rest) (hp : Candidate z p) (hfsm : r.fsm ≠ .seekStart) :
    r.cb = r.cs ∧ r.cs < r.i ∧ byteAt span r.cs = 0x7E ∧
      ∀ j, r.cs < j → j < r.i → byteAt span j ≠ 0x7E := by
  have hne : p ≠ [] := mt h.seek.2 hfsm
  obtain ⟨-, hstart, hrest, -⟩ := hp.resolve_left hne
  have hlen := List.length_pos_iff.2 hne
  have hi := h.idx
  rw [h.start hne]
  refine ⟨rfl, by omega, (h.byteAt_eq hlen).trans hstart, fun j hlo hhi => ?_⟩
  obtain ⟨k, rfl⟩ := Nat.exists_eq_add_of_lt hlo
  rw [Nat.add_assoc, h.byteAt_eq (by omega)]
  exact hrest _ (by omega) (by omega)

/-- What stands before the consumed boundary. -/
theorem Reading.take_cb (h : Reading span r p rest) {pre : List Byte} (hspan : span = pre ++ (p ++ rest)) :
    span.take r.cb = pre := by
  have hboth := List.take_append_drop r.cb span
  rw [h.split] at hboth
  exact List.append_cancel_right (hboth.trans hspan)

theorem PartialCandidate.length_le (h : PartialCandidate z p) : p.length ≤ 127 := by
  obtain ⟨-, -, -, hlen⟩ := h
  omega

/-- A byte that completes a frame emits the candidate with that byte. -/
theorem candStep_eq_of_emits {b : Byte} (h : (candStep z p b).2 ≠ none) : candStep z p b = ([], some (p ++ [b])) := by
  obtain ⟨f, hf⟩ := Option.ne_none_iff_exists'.1 h
  exact Prod.ext (candStep_emits hf) (hf.trans (congrArg some (candStep_emits_snoc hf)))

theorem candidate_candRun (z : Bool) (bs : List Byte) : Candidate z (candRun z [] bs).2 :=
  candRun_candidate (.inl rfl) bs

theorem Reading.cb_eq_i (h : Reading span r p rest) (hfsm : r.fsm = .seekStart) : r.cb = r.i := by
  rw [h.idx, h.seek.1 hfsm]
  rfl

/-- At the head of an iteration I counts the bytes read (R180). -/
theorem loop_reading {mode : ScanMode} {pre post : List Byte} (hspan : span = pre ++ post)
    (hstop : (Scan.loop mode z span ⟨r.start, [], .endOfSpan⟩ pre).stop = .endOfSpan) :
    Reading span (Scan.loop mode z span ⟨r.start, [], .endOfSpan⟩ pre).regs (candRun z [] pre).2 post ∧
      (Scan.loop mode z span ⟨r.start, [], .endOfSpan⟩ pre).regs.i = pre.length := by
  obtain ⟨read, unread, hpre, -, hread, hend⟩ :=
    loop_consumes mode z span post pre [] ⟨r.start, [], .endOfSpan⟩ (hspan ▸ reading_start r span) rfl
  rw [hstop] at hend
  obtain rfl : unread = [] := hend
  obtain rfl : pre = read := hpre.trans (List.append_nil read)
  refine ⟨hread, ?_⟩
  have hle := loop_cb_le mode z span pre ⟨r.start, [], .endOfSpan⟩ (le_refl 0)
  have hidx := hread.idx
  have hsplit := congrArg List.length hread.split
  have hlen := congrArg List.length hspan
  simp only [List.nil_append, List.length_drop, List.length_append, ScanRegs.start_i] at hle hsplit hlen
  omega

/-! ## How a scan ends -/

variable {mode : ScanMode}

theorem scanSpan_all_stop (z : Bool) (r : ScanRegs) (span : List Byte) (room : Nat) :
    (scanSpan (.all room) z r span).stop =
      if (framesIn z span).length ≤ room then .endOfSpan else .outFull := by
  rw [framesIn_eq]
  split
  next hle => exact (scanSpan_all z r span room hle).1
  next hgt => exact (scanSpan_outFull z r span room (Nat.lt_of_not_le hgt)).1

theorem framesIn_emittable {f : List Byte} (h : f ∈ framesIn z span) : Emittable z f :=
  candRun_emittable (.inl rfl) span f (framesIn_eq z span ▸ h)

/-- Whatever its mode, a scan finds the first frames of its span. -/
theorem scanSpan_frames_prefix (mode : ScanMode) (z : Bool) (r : ScanRegs) (span : List Byte) :
    (scanSpan mode z r span).frames <+: framesIn z span := by
  rw [framesIn_eq]
  cases mode with
  | all room => exact scanSpan_all_frames z r span room ▸ List.take_prefix ..
  | first => exact scanSpan_first_frames z r span ▸ List.take_prefix ..

/-- A later scan of what a scan left, in whatever mode and wherever it stopped, finds the other frames of the span and
leaves the same bytes (R182). -/
theorem scanSpan_rescan (mode : ScanMode) (z : Bool) (r : ScanRegs) (span : List Byte) :
    framesIn z span = (scanSpan mode z r span).frames ++ framesIn z (span.drop (scanSpan mode z r span).regs.cb) ∧
      leftIn z span = leftIn z (span.drop (scanSpan mode z r span).regs.cb) := by
  obtain ⟨pre, post, hspan, hframes, hread, -⟩ := scanSpan_consumes mode z r span
  have hrun : candRun z [] span = _ := (congrArg _ hspan).trans (candRun_append z [] pre post)
  have hrest := candRun_restart_append (candidate_candRun z pre) post
  rw [framesIn_eq, framesIn_eq, leftIn_eq, leftIn_eq, hread.split, hframes, hrest, hrun]
  exact ⟨rfl, rfl⟩

/-- A scan that stopped for a full OFIFO left the next frame at the front (R179). -/
theorem scanSpan_outFull_next (h : (scanSpan mode z r span).stop = .outFull) :
    ∃ f, (framesIn z (span.drop (scanSpan mode z r span).regs.cb)).head? = some f ∧
      (span.drop (scanSpan mode z r span).regs.cb).take f.length = f := by
  obtain ⟨pre, post, -, -, hread, hend⟩ := scanSpan_consumes mode z r span
  rw [h] at hend
  obtain ⟨b, rest, rfl, hstep⟩ := hend
  rw [hread.split]
  refine ⟨(candRun z [] pre).2 ++ [b], ?_, ?_⟩
  · rw [framesIn_eq, candRun_restart_append (candidate_candRun z pre), candRun_cons, candStep_eq_of_emits hstep]
    rfl
  · have hsplit := List.append_cons (candRun z [] pre).2 b rest
    rw [hsplit, List.take_left]

/-- The bytes a scan consumed are the frames it found among garbage. -/
theorem scanSpan_consumed_split (mode : ScanMode) (z : Bool) (r : ScanRegs) (span : List Byte) :
    ∃ (gs : List (List Byte)) (g : List Byte), gs.length = (scanSpan mode z r span).frames.length ∧
      span.take (scanSpan mode z r span).regs.cb =
        (List.zipWith (· ++ ·) gs (scanSpan mode z r span).frames).flatten ++ g := by
  obtain ⟨pre, post, hspan, hframes, hread, -⟩ := scanSpan_consumes mode z r span
  obtain ⟨gs, hlen, g, hsplit⟩ := candRun_split (zeroOk := z) (.inl rfl) pre
  rw [hframes]
  refine ⟨gs, g, hlen, hread.take_cb ?_⟩
  rw [hspan, ← List.append_assoc, ← hsplit]
  rfl

theorem slice_eq_drop_take (s : List Byte) (a b : Nat) : slice s a b = (s.take b).drop a :=
  List.drop_take.symm

/-- A scan that stopped because it found a frame found that one only, and consumed no byte after it. -/
theorem scanSpan_found (h : (scanSpan mode z r span).stop = .found) :
    ∃ f, (scanSpan mode z r span).frames = [f] ∧ f.length ≤ (scanSpan mode z r span).regs.cb ∧
      slice span ((scanSpan mode z r span).regs.cb - f.length) (scanSpan mode z r span).regs.cb = f := by
  cases mode with
  | all room =>
    rw [scanSpan_all_stop] at h
    split at h <;> simp at h
  | first =>
    obtain ⟨pre, post, hspan, hframes, hread, hend⟩ := scanSpan_consumes .first z r span
    have hone : (scanSpan .first z r span).frames.length ≤ 1 := by
      rw [scanSpan_first_frames, List.length_take]
      omega
    rw [h] at hend
    obtain ⟨init, b, rfl, hstep⟩ := hend
    have hrun : candRun z [] (init ++ [b]) = ((candRun z [] init).1 ++ [(candRun z [] init).2 ++ [b]], []) := by
      rw [candRun_append, candRun_cons, candStep_eq_of_emits hstep]
      rfl
    rw [hrun] at hframes hread
    -- the frame found is the first one, so only garbage stands before its candidate
    have hfirst : (candRun z [] init).1 = [] := by
      rw [hframes] at hone
      simpa using hone
    obtain ⟨gs, -, g, hsplit⟩ := candRun_split (zeroOk := z) (.inl rfl) init
    rw [hfirst] at hframes hsplit
    have hconsumed : span.take (scanSpan .first z r span).regs.cb = g ++ ((candRun z [] init).2 ++ [b]) := by
      have hinit : init = g ++ (candRun z [] init).2 := hsplit.trans (by simp)
      rw [← List.append_assoc, ← hinit]
      exact hread.take_cb hspan
    have hcb := List.length_take_of_le (scanSpan_cb_le .first z r span)
    rw [hconsumed, List.length_append] at hcb
    refine ⟨_, hframes, by omega, ?_⟩
    rw [slice_eq_drop_take, hconsumed, ← hcb, Nat.add_sub_cancel, List.drop_left]

end Sys2Proof.Machine
end

section
/-! PROOFS. The statement about the scan's invariants and endings (43_stream_parser.md R180). -/

namespace Sys2Proof.Machine

/-- Settles O30: whatever the mode, a scan is always reading a candidate that stands at CB, and it stops with all bytes
read, just past a frame, or on the checksum byte of one. -/
theorem scanInvariantsAndEndings : Obligations.ScanInvariantsAndEndings := by
  refine ⟨?invariant, ?endings⟩
  case invariant =>
    intro mode z r span pre post hspan c hstop
    obtain ⟨hread, hi⟩ := loop_reading hspan hstop
    exact ⟨hi, hread.cb_eq_i, hread.atCandidate (candidate_candRun z pre)⟩
  case endings =>
    intro mode z r span c
    obtain ⟨gs, g, hgs, hconsumed⟩ := scanSpan_consumed_split mode z r span
    refine ⟨scanSpan_cb_le mode z r span, fun hend hseek => ?sought, fun hend hfsm => ?kept, scanSpan_found,
      fun hfull => ?full, fun f hf => framesIn_emittable ((scanSpan_frames_prefix mode z r span).subset hf),
      gs, g, hgs, hconsumed⟩
    case sought =>
      obtain ⟨hread, hi⟩ := loop_reading (List.append_nil span).symm hend
      exact (hread.cb_eq_i hseek).trans hi
    case kept =>
      obtain ⟨hread, -⟩ := loop_reading (List.append_nil span).symm hend
      have hpartial := (candidate_candRun z span).resolve_left (mt hread.seek.2 hfsm)
      have hleft : span.drop c.regs.cb = (candRun z [] span).2 :=
        hread.split.trans (List.append_nil _)
      rw [← hleft] at hpartial
      exact ⟨hpartial, List.length_drop (l := span) ▸ hpartial.length_le⟩
    case full =>
      obtain ⟨f, hhead, htake⟩ := scanSpan_outFull_next hfull
      refine ⟨f, framesIn_emittable (List.mem_of_mem_head? hhead), ?_⟩
      rw [slice, Nat.add_sub_cancel_left]
      exact htake

end Sys2Proof.Machine
end

section
/-! SUPPORT. What the scan finds after garbage, a dropped candidate, a frame and a partial candidate
(43_stream_parser.md R173 to R178, R184). -/

namespace Sys2Proof.Machine

variable {z : Bool} {p f : List Byte}

/-- Spans that `candRun` takes alike are scanned alike. -/
theorem scanned_eq {xs ys : List Byte} (h : candRun z [] xs = candRun z [] ys) :
    framesIn z xs = framesIn z ys ∧ leftIn z xs = leftIn z ys := by
  rw [framesIn_eq, framesIn_eq, leftIn_eq, leftIn_eq, h]
  exact ⟨rfl, rfl⟩

theorem candRun_garbage {g : List Byte} (h : 0x7E ∉ g) (rest : List Byte) :
    candRun z [] (g ++ rest) = candRun z [] rest := by
  induction g with
  | nil => rfl
  | cons b g ih =>
    obtain ⟨hb, hg⟩ := not_or.1 (mt List.mem_cons.2 h)
    have hstep : candStep z [] b = ([], none) := by
      rw [candStep, if_pos List.length_nil, if_neg (Ne.symm hb)]
    rw [List.cons_append, candRun_cons, hstep, ih hg]
    rfl

/-- A byte that makes the candidate p the candidate q, and no frame, is read as q would be read again. -/
theorem candRun_drop {q rest : List Byte} {b : Byte} (hp : Candidate z p) (hstep : candStep z p b = (q, none)) :
    candRun z [] (p ++ b :: rest) = candRun z q rest := by
  rw [candRun_restart_append hp, candRun_cons, hstep]
  rfl

/-- R174: a 0x7E before the checksum byte begins another candidate. -/
theorem candStep_start (hlen : p.length ≤ 2 ∨ p.length < be16 p 1 + 3) :
    candStep z p 0x7E = ([0x7E], none) := by
  have hverify : ¬ (3 ≤ p.length ∧ p.length = be16 p 1 + 3) := by omega
  rw [candStep, if_neg hverify, if_pos rfl, if_pos rfl, ite_self]

/-- R176: the last byte of a rejected LENGTH drops the candidate. -/
theorem candStep_rejected {hi lo : Byte} (hlo : lo ≠ 0x7E)
    (hrej : 124 < hi.toNat * 256 + lo.toNat ∨ hi.toNat * 256 + lo.toNat = 0 ∧ z = false) :
    candStep z [0x7E, hi] lo = ([], none) := by
  have hbe : be16 [0x7E, hi, lo] 1 = hi.toNat * 256 + lo.toNat := rfl
  have hlen : lengthRejected z (be16 [0x7E, hi, lo] 1) = true := by
    rw [hbe, ← Bool.not_eq_false, lengthRejected_eq_false]
    rintro ⟨hle, hzero⟩
    rcases hrej with hbig | ⟨h0, hz⟩
    · omega
    · exact absurd (hzero h0) (by simp [hz])
  rw [candStep, if_neg (by simp), if_neg (by simp), if_neg hlo, if_pos ⟨rfl, hlen⟩]

/-- R178: a byte other than the checksum of a complete candidate drops it. -/
theorem candStep_mismatch {b : Byte} (h3 : 3 ≤ p.length) (hlen : p.length = be16 p 1 + 3)
    (hb : b ≠ checksum (p.drop 3)) : candStep z p b = ([], none) := by
  rw [candStep, if_neg (by omega), if_pos ⟨h3, hlen⟩, if_neg hb]

/-- An emittable frame is a complete candidate and its checksum byte. -/
theorem Emittable.eq_snoc (h : Emittable z f) : ∃ p b, f = p ++ [b] ∧ PartialCandidate z p ∧ 3 ≤ p.length ∧
    p.length = be16 p 1 + 3 ∧ b = checksum (p.drop 3) := by
  obtain ⟨hstart, ⟨hlen, hsum⟩, hmax, hzero, hbody⟩ := h
  obtain ⟨p, b, rfl⟩ : ∃ p b, f = p ++ [b] := by
    rcases List.eq_nil_or_concat f with rfl | ⟨p, b, rfl⟩
    · simp at hlen
    · exact ⟨p, b, List.concat_eq_append⟩
  have hp : (p ++ [b]).length = p.length + 1 := List.length_append
  have h3 : 3 ≤ p.length := by omega
  rw [be16_append _ h3] at hlen hmax hzero
  have hlen' : p.length = be16 p 1 + 3 := by omega
  refine ⟨p, b, rfl, ⟨List.ne_nil_of_length_pos (by omega), ?start, fun j hj hj' => ?body,
    .inr ⟨hmax, hzero, by omega⟩⟩, h3, hlen', ?checksum⟩
  case start => rwa [byteAt_append_left (by omega)] at hstart
  case body =>
    rw [← byteAt_append_left hj']
    exact hbody j hj (by omega)
  case checksum =>
    rw [hp, Nat.add_sub_cancel, byteAt_append_right (le_refl _), slice_eq_drop_take, List.take_left] at hsum
    simpa [byteAt] using hsum

/-- R177: a frame is emitted whole, and the scan goes on after it. -/
theorem candRun_frame (h : Emittable z f) (rest : List Byte) :
    candRun z [] (f ++ rest) = (f :: (candRun z [] rest).1, (candRun z [] rest).2) := by
  obtain ⟨p, b, rfl, hp, h3, hlen, hb⟩ := h.eq_snoc
  have hstep : candStep z p b = ([], some (p ++ [b])) := by
    rw [candStep, if_neg (by omega), if_pos ⟨h3, hlen⟩, if_pos hb]
  rw [← List.append_cons, candRun_restart_append (.inr hp), candRun_cons, hstep]
  rfl

theorem scanned_frame (h : Emittable z f) (rest : List Byte) :
    framesIn z (f ++ rest) = f :: framesIn z rest ∧ leftIn z (f ++ rest) = leftIn z rest := by
  rw [framesIn_eq, framesIn_eq, leftIn_eq, leftIn_eq, candRun_frame h]
  exact ⟨rfl, rfl⟩

theorem scanned_nil (z : Bool) : framesIn z [] = [] ∧ leftIn z [] = [] := by
  rw [framesIn_eq, leftIn_eq]
  exact ⟨rfl, rfl⟩

theorem scanned_partial (h : PartialCandidate z p) : framesIn z p = [] ∧ leftIn z p = p := by
  rw [framesIn_eq, leftIn_eq, candRun_restart (.inr h)]
  exact ⟨rfl, rfl⟩

theorem byteAt_mkFrame_body (type : Byte) {body : List Byte} {k : Nat} (h : k < body.length) :
    byteAt (mkFrame type body) (4 + k) = body[k] := by
  rw [mkFrame, byteAt_append_left (by simp; omega), byteAt_append_right (by simp)]
  simp [byteAt, h]

/-- R184: a frame whose body holds 0x7E is not one the scan may emit. -/
theorem Emittable.not_mem_body {type : Byte} {body : List Byte} (h : Emittable z (mkFrame type body)) :
    0x7E ∉ body := by
  obtain ⟨-, -, -, -, hbytes⟩ := h
  intro hmem
  obtain ⟨k, hk, hbyte⟩ := List.getElem_of_mem hmem
  exact hbytes (4 + k) (by omega) (by rw [length_mkFrame]; omega) ((byteAt_mkFrame_body type hk).trans hbyte)

end Sys2Proof.Machine
end

section
/-! PROOFS. The statements about what the scan finds (43_stream_parser.md R173 to R178, R183, R184). -/

namespace Sys2Proof.Machine

/-- Settles O31: garbage leaves no candidate, and a 0x7E before the checksum byte leaves the one it begins. -/
theorem scanSkipsGarbageAndResyncs : Obligations.ScanSkipsGarbageAndResyncs :=
  fun _ rest => ⟨fun _ hg => scanned_eq (candRun_garbage hg rest),
    fun _ hp hlen => scanned_eq (candRun_drop (.inr hp) (candStep_start hlen))⟩

/-- Settles O32: either candidate is dropped by its last byte, which leaves none. -/
theorem scanDropsMalformedAndMismatchedCandidates : Obligations.ScanDropsMalformedAndMismatchedCandidates := by
  refine fun z rest => ⟨fun hi lo hhi hlo hrej => ?_, fun p b hp h3 hlen hb =>
    scanned_eq (candRun_drop (.inr hp) (candStep_mismatch h3 hlen hb))⟩
  have hopen : PartialCandidate z [0x7E, hi] := (PartialCandidate.start z).snoc hhi (.inl (by simp))
  exact scanned_eq (candRun_drop (.inr hopen) (candStep_rejected hlo hrej))

/-- Settles O33: a frame is a candidate read to its checksum byte, and a partial candidate is read again from its
START. -/
theorem scanEmitsValidFramesAndKeepsThePartial : Obligations.ScanEmitsValidFramesAndKeepsThePartial :=
  fun z => ⟨fun _ rest hf => scanned_frame hf rest, fun _ => scanned_partial, scanned_nil z⟩

/-- Settles O35: what the scan finds is emittable, which a frame that holds the value's 0x7E in its body is not. -/
theorem scanNeverEmitsCorruptFramesOrFramesHoldingStart :
    Obligations.ScanNeverEmitsCorruptFramesOrFramesHoldingStart := by
  refine ⟨fun z span f hf => ?sound, fun z span v fld _ hv hf => ?holdsStart, fun z f hf _ => ?found⟩
  case sound =>
    obtain ⟨-, hvalid, -, -, hbytes⟩ := framesIn_emittable hf
    exact ⟨hvalid, hbytes⟩
  case holdsStart => exact (framesIn_emittable hf).not_mem_body (List.mem_append_right _ hv)
  case found =>
    obtain ⟨hframes, -⟩ := scanned_frame hf []
    rwa [List.append_nil, (scanned_nil z).1] at hframes

end Sys2Proof.Machine
end

section
/-! SUPPORT. The words of the input commands, what IN_PUSH, IN_APPEND and PARSE do in the cases of their rules
(43_stream_parser.md R185 to R187), and what a row of them makes of the stream they deliver (R182). -/

namespace Sys2Proof

theorem encode_inPush (a : Byte) : encode (.inPush a) = BitVec.ofNat 32 (a.toNat * 0x100 + 0x30) := by
  simp [encode, Instr.immOperand, Instr.aOperand, Instr.opcode]

end Sys2Proof

namespace Sys2Proof.Machine

variable {s t u : State} {d e : List Byte}

/-! ## The commands -/

theorem storeList_singleton {buf : List Byte} {n : Nat} (a : Byte) (h : n < buf.length) :
    storeList buf n [a] = buf.set n a := by
  have hlen : (buf.take n ++ [a] ++ buf.drop (n + 1)).length = buf.length := by
    simp
    omega
  rw [List.set_eq_take_append_cons_drop, if_pos h, List.append_cons, storeList, List.length_singleton,
    List.take_of_length_le hlen.le]

theorem exec_inPush_of_full (h : s.inCount = s.params.inCap) (a : Byte) :
    exec (.inPush a) s = .next (s.raise .full) := by
  rw [exec, execInPush, if_pos h]

theorem exec_inPush_of_lt (h : s.inCount < s.params.inCap) (a : Byte) :
    exec (.inPush a) s = .next (s.appendInput [a]).endOk := by
  rw [exec, execInPush, if_neg (Nat.ne_of_lt h)]

theorem exec_inAppend_of_gt (h : s.params.inCap < s.inCount + s.oplen) :
    exec .inAppend s = .next (s.raise .full) := by
  rw [exec, execInAppend, if_pos h]

theorem exec_outPop_of_nil (h : s.ofifo = []) : exec .outPop s = .next (s.raise .empty) := by
  rw [exec, execOutPop, h]

theorem exec_outPop_of_cons {fr : List Byte} {rest : List (List Byte)} (h : s.ofifo = fr :: rest) :
    exec .outPop s = .next ({ s with ofifo := rest }.writeResultString fr).endOk := by
  rw [exec, execOutPop, h]

/-- The scan of PARSE (R187). -/
def State.parseScan (s : State) : Scan := s.runScan (.all (s.params.outDepth - s.ofifo.length))

/-- The state PARSE leaves (R187). -/
def State.afterParse (s : State) : State :=
  { s.commitScan s.parseScan with
    ofifo := s.ofifo ++ s.parseScan.frames
    result := countWord s.parseScan.frames.length
    status := if s.parseScan.stop = .outFull then 0x04 else 0x00 }

theorem exec_parse (s : State) : exec .parse s = .next s.afterParse := by
  rw [exec, execParse, State.afterParse]
  change Host.Outcome.next (if s.parseScan.stop = .outFull then _ else _) = _
  by_cases hfull : s.parseScan.stop = .outFull
  · rw [if_pos hfull, if_pos hfull]
    rfl
  · rw [if_neg hfull, if_neg hfull]
    rfl

theorem State.Inv.afterParse (h : s.Inv) : s.afterParse.Inv := exec_keeps_inv .parse h _ (exec_parse s)

theorem buffered_afterParse (h : s.Inv) : s.afterParse.buffered = s.buffered.drop s.parseScan.regs.cb :=
  buffered_commitScan h s.parseScan (runScan_cb_le h _)

/-! ## PARSE and the frames of the buffered input -/

/-- The frames of the buffered input (R170). -/
def State.found (s : State) : List (List Byte) := framesIn s.params.zeroLenAccept s.buffered

/-- The bytes a scan of the buffered input leaves (R181). -/
def State.left (s : State) : List Byte := leftIn s.params.zeroLenAccept s.buffered

/-- The number of frames OFIFO has room for (R170). -/
def State.room (s : State) : Nat := s.params.outDepth - s.ofifo.length

theorem parseScan_frames (s : State) : s.parseScan.frames = s.found.take s.room := by
  rw [State.found, framesIn_eq]
  exact scanSpan_all_frames ..

theorem status_afterParse (s : State) : s.afterParse.status = if s.found.length ≤ s.room then 0x00 else 0x04 := by
  have hstop : s.parseScan.stop = if s.found.length ≤ s.room then .endOfSpan else .outFull := scanSpan_all_stop ..
  rw [State.afterParse, hstop]
  by_cases hroom : s.found.length ≤ s.room <;> simp [hroom]

theorem ofifo_afterParse (s : State) : s.afterParse.ofifo = s.ofifo ++ s.found.take s.room := by
  rw [← parseScan_frames]
  rfl

theorem ofifo_afterParse_of_le (h : s.found.length ≤ s.room) : s.afterParse.ofifo = s.ofifo ++ s.found := by
  rw [ofifo_afterParse, List.take_of_length_le h]

/-- What PARSE leaves is scanned later to the frames it had no room for and to the same bytes (R179, R182). -/
theorem found_afterParse (h : s.Inv) :
    s.afterParse.found = s.found.drop s.room ∧ s.afterParse.left = s.left := by
  obtain ⟨hfound, hleft⟩ := scanSpan_rescan (.all s.room) s.params.zeroLenAccept s.scan s.buffered
  have hbuffered := buffered_afterParse h
  have hafter : s.afterParse.found = framesIn s.params.zeroLenAccept (s.buffered.drop s.parseScan.regs.cb) :=
    congrArg (framesIn s.params.zeroLenAccept) hbuffered
  refine ⟨List.append_cancel_left (as := s.found.take s.room) ?_, ?_⟩
  · rw [List.take_append_drop, ← parseScan_frames, hafter]
    exact hfound.symm
  · exact (congrArg (leftIn s.params.zeroLenAccept) hbuffered).trans hleft.symm

/-- With room for every frame PARSE leaves only the bytes after the last of them that may still become one (R181). -/
theorem buffered_afterParse_of_le (h : s.Inv) (hroom : s.found.length ≤ s.room) : s.afterParse.buffered = s.left := by
  rw [State.found, framesIn_eq] at hroom
  obtain ⟨-, -, hread⟩ := scanSpan_all s.params.zeroLenAccept s.scan s.buffered s.room hroom
  rw [buffered_afterParse h, State.left, leftIn_eq]
  exact hread.split.trans (List.append_nil _)

/-- Without room for every frame PARSE leaves the next one at the front (R179). -/
theorem next_afterParse (h : s.Inv) (hroom : s.room < s.found.length) :
    ∃ f, (s.found.drop s.room).head? = some f ∧ s.afterParse.buffered.take f.length = f := by
  have hstop : s.parseScan.stop = .outFull := (scanSpan_all_stop ..).trans (if_neg (Nat.not_le.2 hroom))
  obtain ⟨hfound, -⟩ := found_afterParse h
  rw [← hfound, State.found, buffered_afterParse h]
  exact scanSpan_outFull_next hstop

/-! ## The stream a row of commands delivers -/

/-- The frames of the buffered input once the bytes d are delivered after it. -/
def State.foundAfter (s : State) (d : List Byte) : List (List Byte) :=
  framesIn s.params.zeroLenAccept (s.buffered ++ d)

/-- The bytes a scan of that input leaves. -/
def State.leftAfter (s : State) (d : List Byte) : List Byte := leftIn s.params.zeroLenAccept (s.buffered ++ d)

/-- A stream in two parts: the second is scanned after what the first leaves (R182). -/
theorem scanned_append (z : Bool) (xs ys : List Byte) :
    framesIn z (xs ++ ys) = framesIn z xs ++ framesIn z (leftIn z xs ++ ys) ∧
      leftIn z (xs ++ ys) = leftIn z (leftIn z xs ++ ys) := by
  simp only [framesIn_eq, leftIn_eq, candRun_restart_append (candidate_candRun z xs), candRun_append z [] xs ys]
  exact ⟨trivial, trivial⟩

/-- State t is s after the bytes d were delivered to it and some frames queued: the frames queued and those still
buffered are the frames s queued and those of the whole stream (R182). -/
structure Delivered (s t : State) (d : List Byte) : Prop where
  inv : t.Inv
  params : t.params = s.params
  operand : t.operand = s.operand
  inCount : t.inCount ≤ s.inCount + d.length
  frames : t.ofifo ++ t.found = s.ofifo ++ s.foundAfter d
  left : t.left = s.leftAfter d

@[simp] theorem State.foundAfter_nil (s : State) : s.foundAfter [] = s.found := by
  rw [State.foundAfter, List.append_nil, State.found]

@[simp] theorem State.leftAfter_nil (s : State) : s.leftAfter [] = s.left := by
  rw [State.leftAfter, List.append_nil, State.left]

theorem Delivered.refl (h : s.Inv) : Delivered s s [] where
  inv := h
  params := rfl
  operand := rfl
  inCount := Nat.le_refl _
  frames := by rw [State.foundAfter_nil]
  left := s.leftAfter_nil.symm

theorem Delivered.trans (h : Delivered s t d) (h' : Delivered t u e) : Delivered s u (d ++ e) where
  inv := h'.inv
  params := h'.params.trans h.params
  operand := h'.operand.trans h.operand
  inCount := by
    have h1 := h.inCount
    have h2 := h'.inCount
    rw [List.length_append]
    omega
  frames := by
    obtain ⟨hrest, -⟩ := scanned_append t.params.zeroLenAccept t.buffered e
    obtain ⟨hstream, -⟩ := scanned_append s.params.zeroLenAccept (s.buffered ++ d) e
    calc u.ofifo ++ u.found
      _ = t.ofifo ++ t.foundAfter e := h'.frames
      _ = (t.ofifo ++ t.found) ++ framesIn t.params.zeroLenAccept (t.left ++ e) := by
        rw [List.append_assoc]
        exact congrArg (t.ofifo ++ ·) hrest
      _ = (s.ofifo ++ s.foundAfter d) ++ framesIn s.params.zeroLenAccept (s.leftAfter d ++ e) := by
        rw [h.frames, h.left, h.params]
      _ = s.ofifo ++ s.foundAfter (d ++ e) := by
        rw [List.append_assoc, State.foundAfter, State.foundAfter, ← List.append_assoc s.buffered, hstream,
          State.leftAfter]
  left := by
    obtain ⟨-, hrest⟩ := scanned_append t.params.zeroLenAccept t.buffered e
    obtain ⟨-, hstream⟩ := scanned_append s.params.zeroLenAccept (s.buffered ++ d) e
    calc u.left
      _ = t.leftAfter e := h'.left
      _ = leftIn t.params.zeroLenAccept (t.left ++ e) := hrest
      _ = leftIn s.params.zeroLenAccept (s.leftAfter d ++ e) := by rw [h.left, h.params]
      _ = s.leftAfter (d ++ e) := by rw [State.leftAfter, State.leftAfter, ← List.append_assoc s.buffered, hstream]

theorem delivered_appendInput (h : s.Inv) (hfit : s.inCount + d.length ≤ s.params.inCap) :
    Delivered s (s.appendInput d).endOk d where
  inv := (h.appendInput hfit).endOk
  params := rfl
  operand := rfl
  inCount := Nat.le_refl _
  frames := congrArg (s.ofifo ++ framesIn s.params.zeroLenAccept ·) (buffered_appendInput h d hfit)
  left := congrArg (leftIn s.params.zeroLenAccept) (buffered_appendInput h d hfit)

theorem delivered_afterParse (h : s.Inv) : Delivered s s.afterParse [] where
  inv := h.afterParse
  params := rfl
  operand := rfl
  inCount := Nat.sub_le ..
  frames := by
    obtain ⟨hfound, -⟩ := found_afterParse h
    rw [hfound, ofifo_afterParse, List.append_assoc, List.take_append_drop, State.foundAfter_nil]
  left := by
    obtain ⟨-, hleft⟩ := found_afterParse h
    rw [hleft, State.leftAfter_nil]

/-- The commands that deliver a stream and scan it. -/
def FeedsInput (i : Instr) : Prop := (∃ a, i = .inPush a) ∨ i = .inAppend ∨ i = .parse

theorem exec_feedsInput {i : Instr} (hi : FeedsInput i) (h : s.Inv)
    (hfit : s.inCount + (s.deliveredBy i).length ≤ s.params.inCap) :
    ∃ t, exec i s = .next t ∧ Delivered s t (s.deliveredBy i) := by
  rcases hi with ⟨a, rfl⟩ | rfl | rfl
  · exact ⟨_, exec_inPush_of_lt hfit a, delivered_appendInput h hfit⟩
  · exact ⟨_, exec_inAppend_of_le (length_operand h.oplen ▸ hfit), delivered_appendInput h hfit⟩
  · exact ⟨_, exec_parse s, delivered_afterParse h⟩

/-- What a command delivers depends on the operand string only. -/
theorem deliveredBy_eq (h : t.operand = s.operand) : t.deliveredBy = s.deliveredBy := by
  funext i
  cases i with
  | inAppend => exact h
  | _ => rfl

/-- PARSE delivers no byte. -/
theorem flatMap_deliveredBy_filter (s : State) (cs : List Instr) :
    (cs.filter fun i => decide (i ≠ .parse)).flatMap s.deliveredBy = cs.flatMap s.deliveredBy := by
  induction cs with
  | nil => rfl
  | cons i cs ih =>
    by_cases hi : i = .parse
    · subst hi
      rw [List.filter_cons_of_neg (by simp), ih]
      rfl
    · rw [List.filter_cons_of_pos (by simpa using hi), List.flatMap_cons, List.flatMap_cons, ih]

theorem runCommands_feedsInput {cs : List Instr} (hcs : ∀ i ∈ cs, FeedsInput i) : ∀ {s : State}, s.Inv →
    s.inCount + (cs.flatMap s.deliveredBy).length ≤ s.params.inCap →
      ∃ t, runCommands cs s = .next t ∧ Delivered s t (cs.flatMap s.deliveredBy) := by
  induction cs with
  | nil => exact fun h _ => ⟨_, rfl, .refl h⟩
  | cons i cs ih =>
    intro s h hfit
    obtain ⟨hi, hcs⟩ := List.forall_mem_cons.1 hcs
    rw [List.flatMap_cons, List.length_append] at hfit
    obtain ⟨t, ht, hdelivered⟩ := exec_feedsInput hi h (by omega)
    have hrest := ih hcs hdelivered.inv
    rw [deliveredBy_eq hdelivered.operand, hdelivered.params] at hrest
    have hcount := hdelivered.inCount
    obtain ⟨u, hu, hdelivered'⟩ := hrest (by omega)
    exact ⟨u, (runCommands_cons_of_next ht cs).trans hu, hdelivered.trans hdelivered'⟩

/-- A row of such commands and one PARSE more: whether it ends with OK, and what it leaves then, depends on the stream
alone and not on where in it PARSEs stand (R182). -/
theorem runCommands_feedsInput_parse {cs : List Instr} (hcs : ∀ i ∈ cs, FeedsInput i) (h : s.Inv)
    (hd : cs.flatMap s.deliveredBy = d) (hfit : s.inCount + d.length ≤ s.params.inCap) :
    ∃ t, runCommands (cs ++ [.parse]) s = .next t ∧
      (t.status = 0x00 ↔ (s.ofifo ++ s.foundAfter d).length ≤ s.params.outDepth) ∧
      (t.status = 0x00 → t.ofifo = s.ofifo ++ s.foundAfter d ∧ t.buffered = s.leftAfter d) := by
  subst hd
  obtain ⟨u, hu, hdelivered⟩ := runCommands_feedsInput hcs h hfit
  have hok : u.afterParse.status = 0x00 ↔ u.found.length ≤ u.room := by
    rw [status_afterParse]
    split <;> simp [*]
  refine ⟨u.afterParse, ?_, hok.trans ?_, fun hstatus => ?_⟩
  · rw [runCommands_append_of_next hu, runCommands_cons_of_next (exec_parse u)]
    rfl
  · have hqueue := hdelivered.inv.ofifo
    rw [← hdelivered.frames, ← hdelivered.params, List.length_append, State.room]
    omega
  · have hroom := hok.1 hstatus
    rw [ofifo_afterParse_of_le hroom, buffered_afterParse_of_le hdelivered.inv hroom]
    exact ⟨hdelivered.frames, hdelivered.left⟩

end Sys2Proof.Machine
end

section
/-! PROOFS. The statements about the stream parser's commands (43_stream_parser.md R185 to R188). -/

namespace Sys2Proof.Machine

/-- Settles O25: a byte stored where the buffered input ends extends it. -/
theorem inPushAppendsOneByteOrRaisesFull : Obligations.InPushAppendsOneByteOrRaisesFull := by
  intro a
  refine ⟨?word, fun s h => ⟨fun hfull => exec_inPush_of_full hfull a, fun hlt => ?stored⟩⟩
  case word => rw [← encode_inPush, decodeInvertsEncode _ rfl]
  case stored =>
    refine ⟨_, exec_inPush_of_lt hlt a, ?_, buffered_appendInput h [a] hlt⟩
    rw [← storeList_singleton a (h.ibuf ▸ hlt)]
    rfl

/-- Settles O26: the operand string has OPLEN bytes, and when it fits it is stored where the buffered input ends. -/
theorem inAppendStoresAllOrNothing : Obligations.InAppendStoresAllOrNothing := by
  refine ⟨decodeInvertsEncode .inAppend rfl, fun s h => ⟨exec_inAppend_of_gt, fun hle => ?stored⟩⟩
  have hlen : s.operand.length = s.oplen := length_operand h.oplen
  refine ⟨_, exec_inAppend_of_le hle, buffered_appendInput h s.operand (hlen ▸ hle), fun j hj => ?after, ?frame⟩
  case after =>
    have hdrop := drop_storeList_after s.ibuf s.operand s.inCount (by rw [h.ibuf, hlen]; exact hle)
    obtain ⟨k, rfl⟩ := Nat.exists_eq_add_of_le hj
    rw [← hlen, ← List.getElem?_drop, ← List.getElem?_drop, ← hdrop]
    rfl
  case frame =>
    have hcount : s.inCount + s.operand.length = s.inCount + s.oplen := by rw [hlen]
    rw [← hcount]
    rfl

/-- Settles O27: the consumed boundary lies in the buffered input, so the bytes from it on fit at the front of IBUF. -/
theorem parseQueuesFramesAndCompacts : Obligations.ParseQueuesFramesAndCompacts :=
  ⟨decodeInvertsEncode .parse rfl, fun s h =>
    ⟨s.afterParse, exec_parse s, buffered_afterParse h, countWord_toNat, rfl, rfl⟩⟩

/-- Settles O28: a queued frame is emittable, so it has at most 128 bytes and fits RBUF. -/
theorem outPopMovesTheOldestFrame : Obligations.OutPopMovesTheOldestFrame := by
  refine ⟨decodeInvertsEncode .outPop rfl, fun s h => ⟨exec_outPop_of_nil, fun fr rest hq => ?_⟩⟩
  have hframe : Emittable s.params.zeroLenAccept fr := h.frames fr (hq ▸ List.mem_cons_self)
  exact ⟨_, exec_outPop_of_cons hq, writes_of_writeResultString hframe.length_le⟩

/-- Settles O37: PARSE queues the first frames of the scan, as many as there is room for, and what it leaves holds the
others. -/
theorem parseLosesNoFrameWhenFull : Obligations.ParseLosesNoFrameWhenFull := by
  intro s h z found room
  have hstatus := status_afterParse s
  refine ⟨s.afterParse, exec_parse s, fun hle => ?all, fun hlt => ?full⟩
  case all =>
    exact ⟨hstatus.trans (if_pos hle), ofifo_afterParse_of_le hle, buffered_afterParse_of_le h hle⟩
  case full =>
    obtain ⟨hfound, hleft⟩ := found_afterParse h
    exact ⟨hstatus.trans (if_neg (Nat.not_le.2 hlt)), ofifo_afterParse s, hfound, hleft, next_afterParse h hlt⟩

/-- Settles O39: both rows deliver the same stream, so they end alike. -/
theorem splittingTheStreamChangesNoFrame : Obligations.SplittingTheStreamChangesNoFrame := by
  intro s t cs h hcs hfit hrun hok
  obtain ⟨u, hu, huok, huend⟩ := runCommands_feedsInput_parse hcs h rfl hfit
  obtain ⟨t', ht', htok, htend⟩ := runCommands_feedsInput_parse (fun i hi => hcs i (List.mem_of_mem_filter hi)) h
    (flatMap_deliveredBy_filter s cs) hfit
  obtain rfl := Host.Outcome.next.inj (ht'.symm.trans hrun)
  have hstatus := huok.2 (htok.1 hok)
  obtain ⟨huofifo, hubuffered⟩ := huend hstatus
  obtain ⟨htofifo, htbuffered⟩ := htend hok
  exact ⟨u, hu, hstatus, huofifo.trans htofifo.symm, hubuffered.trans htbuffered.symm⟩

end Sys2Proof.Machine
end

section
/-! SUPPORT. What EXTRACT does when the buffered input holds a frame and when it holds none (44_extractor.md R210, R211),
and what a row of EXTRACTs leaves of the frames of the buffered input (R212). -/

namespace Sys2Proof.Machine

variable {s : State} {f : List Byte} {fs : List (List Byte)}

/-! ## The scan of EXTRACT -/

/-- The scan of EXTRACT (R210). -/
def State.extractScan (s : State) : Scan := s.runScan .first

theorem extractScan_frames (s : State) : s.extractScan.frames = s.found.take 1 := by
  rw [State.found, framesIn_eq]
  exact scanSpan_first_frames ..

/-- Without a frame the scan runs to the end and keeps the candidate it was reading. -/
theorem extractScan_of_nil (h : s.found = []) :
    s.extractScan.stop = .endOfSpan ∧ s.buffered.drop s.extractScan.regs.cb = s.left := by
  rw [State.found, framesIn_eq] at h
  obtain ⟨hstop, -, hread⟩ := scanSpan_first_none _ s.scan s.buffered h
  rw [State.left, leftIn_eq]
  exact ⟨hstop, hread.split.trans (List.append_nil _)⟩

theorem extractScan_stop_of_cons (h : s.found = f :: fs) : s.extractScan.stop = .found := by
  rw [State.found, framesIn_eq] at h
  obtain ⟨hstop, -⟩ := scanSpan_first_some _ s.scan s.buffered f fs h
  exact hstop

/-! ## The state it leaves -/

/-- The state EXTRACT leaves (R210, R211). -/
def State.afterExtract (s : State) : State :=
  match s.found with
  | [] => (s.commitScan s.extractScan).raise .notFound
  | f :: _ => ((s.commitScan s.extractScan).writeResultString f).endOk

theorem afterExtract_of_nil (h : s.found = []) :
    s.afterExtract = (s.commitScan s.extractScan).raise .notFound := by
  rw [State.afterExtract, h]

theorem afterExtract_of_cons (h : s.found = f :: fs) :
    s.afterExtract = ((s.commitScan s.extractScan).writeResultString f).endOk := by
  rw [State.afterExtract, h]

theorem exec_extract (s : State) : exec .extract s = .next s.afterExtract := by
  rw [exec, execExtract]
  change Host.Outcome.next (if s.extractScan.stop = .found then _ else _) = _
  cases hfound : s.found with
  | nil =>
    obtain ⟨hstop, -⟩ := extractScan_of_nil hfound
    rw [afterExtract_of_nil hfound, if_neg (by simp [hstop])]
    rfl
  | cons f fs =>
    have hframes : (s.runScan .first).frames = [f] := by
      rw [← State.extractScan, extractScan_frames, hfound]
      rfl
    rw [afterExtract_of_cons hfound, if_pos (extractScan_stop_of_cons hfound), hframes]
    rfl

theorem State.Inv.afterExtract (h : s.Inv) : s.afterExtract.Inv := exec_keeps_inv .extract h _ (exec_extract s)

/-- Found or not, EXTRACT leaves the parameters, and the input and the transient registers as its scan committed
them. -/
theorem afterExtract_input (s : State) : s.afterExtract.params = s.params ∧
    s.afterExtract.buffered = (s.commitScan s.extractScan).buffered ∧ s.afterExtract.scan.fsm = .seekStart := by
  cases hfound : s.found with
  | nil =>
    rw [afterExtract_of_nil hfound]
    exact ⟨rfl, rfl, rfl⟩
  | cons f fs =>
    rw [afterExtract_of_cons hfound]
    exact ⟨rfl, rfl, rfl⟩

theorem buffered_afterExtract (h : s.Inv) : s.afterExtract.buffered = s.buffered.drop s.extractScan.regs.cb := by
  obtain ⟨-, hbuffered, -⟩ := afterExtract_input s
  exact hbuffered.trans (buffered_commitScan h s.extractScan (runScan_cb_le h .first))

/-- On NOT_FOUND what stays buffered is nothing or a partial candidate (R211). -/
theorem buffered_afterExtract_of_nil (h : s.Inv) (hfound : s.found = []) : s.afterExtract.buffered = s.left := by
  obtain ⟨-, hleft⟩ := extractScan_of_nil hfound
  exact (buffered_afterExtract h).trans hleft

theorem candidate_left (s : State) : Candidate s.params.zeroLenAccept s.left := by
  rw [State.left, leftIn_eq]
  exact candidate_candRun ..

/-- EXTRACT takes the first frame from those of the buffered input (R182). -/
theorem found_afterExtract (h : s.Inv) : s.afterExtract.found = s.found.drop 1 ∧ s.afterExtract.left = s.left := by
  obtain ⟨hparams, -, -⟩ := afterExtract_input s
  obtain ⟨hfound, hleft⟩ := scanSpan_rescan .first s.params.zeroLenAccept s.scan s.buffered
  rw [State.found, State.left, hparams, buffered_afterExtract h]
  refine ⟨List.append_cancel_left (as := s.found.take 1) ?_, hleft.symm⟩
  rw [List.take_append_drop, ← extractScan_frames]
  exact hfound.symm

/-! ## A row of EXTRACTs -/

/-- k EXTRACTs take the first k frames, and every frame when there are not so many. -/
theorem runCommands_extracts (k : Nat) : ∀ {s : State}, s.Inv →
    ∃ u, runCommands (List.replicate k .extract) s = .next u ∧ u.Inv ∧ u.found = s.found.drop k ∧ u.left = s.left := by
  induction k with
  | zero => exact fun h => ⟨_, rfl, h, rfl, rfl⟩
  | succ k ih =>
    intro s h
    obtain ⟨hfound, hleft⟩ := found_afterExtract h
    obtain ⟨u, hu, hinv, hufound, huleft⟩ := ih h.afterExtract
    refine ⟨u, (runCommands_cons_of_next (exec_extract s) _).trans hu, hinv, ?_, huleft.trans hleft⟩
    rw [hufound, hfound, List.drop_drop, Nat.add_comm]

/-- The last of k + 1 EXTRACTs runs where k frames are taken. -/
theorem runCommands_extracts_succ (h : s.Inv) (k : Nat) :
    ∃ v : State, runCommands (List.replicate (k + 1) .extract) s = .next v.afterExtract ∧ v.Inv ∧
      v.found = s.found.drop k ∧ v.left = s.left := by
  obtain ⟨v, hv, hinv, hfound, hleft⟩ := runCommands_extracts k h
  refine ⟨v, ?_, hinv, hfound, hleft⟩
  rw [List.replicate_succ', runCommands_append_of_next hv, runCommands_cons_of_next (exec_extract v)]
  rfl

end Sys2Proof.Machine
end

section
/-! PROOFS. The statements about the single-frame extractor (44_extractor.md R210 to R212). -/

namespace Sys2Proof.Machine

/-- Settles O38: both find the frames of the buffered input, PARSE all at once since it ended with OK, and each EXTRACT
the first of those the EXTRACTs before it left. -/
theorem repeatedExtractFindsTheFramesOfParse : Obligations.RepeatedExtractFindsTheFramesOfParse := by
  intro s t h hempty hrun hok
  obtain rfl := Host.Outcome.next.inj ((exec_parse s).symm.trans hrun)
  have hroom : s.found.length ≤ s.room := by
    by_contra hgt
    rw [status_afterParse, if_neg hgt] at hok
    simp at hok
  have hqueue : s.afterParse.ofifo = s.found := by rw [ofifo_afterParse_of_le hroom, hempty, List.nil_append]
  have hbuffered := buffered_afterParse_of_le h hroom
  refine ⟨fun k hk => ?found, ?notFound⟩
  case found =>
    obtain ⟨v, hv, -, hrest, -⟩ := runCommands_extracts_succ h k
    have hk' : k < s.found.length := hqueue ▸ hk
    rw [List.drop_eq_getElem_cons hk'] at hrest
    have hframe : (s.found[k]).length ≤ 128 := (framesIn_emittable (List.getElem_mem hk')).length_le
    rw [afterExtract_of_cons hrest] at hv
    refine ⟨_, hv, rfl, ?_⟩
    obtain ⟨hstring, -⟩ := writes_of_writeResultString (s := v.commitScan v.extractScan) hframe
    simp only [hstring, hqueue]
  case notFound =>
    rw [hqueue]
    obtain ⟨v, hv, hinv, hrest, hleft⟩ := runCommands_extracts_succ h s.found.length
    rw [List.drop_length] at hrest
    have hsame : v.afterExtract.buffered = s.afterParse.buffered := by
      rw [buffered_afterExtract_of_nil hinv hrest, hleft, hbuffered]
    refine ⟨_, hv, by rw [afterExtract_of_nil hrest]; rfl, hsame, ?_⟩
    rw [← length_buffered hinv.afterExtract, hsame, length_buffered h.afterParse]

/-- Settles O29: the scan finds a frame exactly when the buffered input holds one; a frame found is emittable, so it fits
RBUF, and without one the scan leaves the candidate it was reading. -/
theorem extractTakesTheFirstFrameAndCompacts : Obligations.ExtractTakesTheFirstFrameAndCompacts := by
  refine ⟨decodeInvertsEncode .extract rfl, fun s h => ?_⟩
  obtain ⟨-, -, hfsm⟩ := afterExtract_input s
  refine ⟨s.afterExtract, exec_extract s, buffered_afterExtract h, hfsm, ?_⟩
  cases hfound : s.found with
  | nil =>
    obtain ⟨hstop, -⟩ := extractScan_of_nil hfound
    refine ⟨fun hc => absurd (hstop.symm.trans hc) (by simp), fun _ => ⟨?_, ?_⟩⟩
    · rw [afterExtract_of_nil hfound]
      rfl
    · rw [buffered_afterExtract_of_nil h hfound]
      exact candidate_left s
  | cons f fs =>
    refine ⟨fun _ => ⟨f, ?_, ?_⟩, fun hc => absurd (extractScan_stop_of_cons hfound) hc⟩
    · rw [← State.extractScan, extractScan_frames, hfound]
      rfl
    · have hframe : Emittable s.params.zeroLenAccept f := framesIn_emittable (hfound ▸ List.mem_cons_self)
      rw [afterExtract_of_cons hfound]
      exact writes_of_writeResultString hframe.length_le

end Sys2Proof.Machine
end

section
/-! SUPPORT. What the inspector's commands write when the frame holds the field and when it does not, and the fields they
read as bytes of OPBUF (45_inspector.md R220 to R229). -/

namespace Sys2Proof

theorem encode_pktCount (n : Imm) : encode (.pktCount n) = BitVec.ofNat 32 (n.toNat * 0x10000 + 0x47) := by
  simp [encode, Instr.immOperand, Instr.aOperand, Instr.opcode]

end Sys2Proof

namespace Sys2Proof.Machine

variable {s : State}

/-! ## The fields of the operand frame -/

theorem be16_operand (h : 3 ≤ s.oplen) : be16 s.operand 1 = s.opbuf[1].toNat * 256 + s.opbuf[2].toNat := by
  rw [be16, byteAt_operand 1 (by omega) (by decide), byteAt_operand 2 (by omega) (by decide)]

theorem length_slice {f : List Byte} {a b : Nat} (h : b ≤ f.length) : (slice f a b).length = b - a := by
  rw [slice, List.length_take, List.length_drop]
  omega

theorem lookup_of_wire {b0 b1 : Byte} {fld : AtField} (h0 : b0 = (wire fld).1) (h1 : b1 = (wire fld).2) :
    lookup b0 b1 = fieldId fld := by
  rw [h0, h1, lookup_wire]

/-- Two bytes that are no field's wire bytes are looked up as 0xFF (R221). -/
theorem lookup_of_no_wire {b0 b1 : Byte} (h : ∀ fld ∈ allFields, ¬ (b0 = (wire fld).1 ∧ b1 = (wire fld).2)) :
    lookup b0 b1 = 0xFF := by
  have hnone : allFields.find? (fun fld => wire fld == (b0, b1)) = none := by
    refine List.find?_eq_none.2 fun fld hfld hwire => h fld hfld ?_
    rw [beq_iff_eq.1 hwire]
    exact ⟨rfl, rfl⟩
  rw [lookup, hnone]

/-! ## The commands -/

/-- PKT_COUNT with MAX_TX_PAYLOAD as the number it is (R229). -/
theorem exec_pktCount (n : Imm) (s : State) :
    exec (.pktCount n) s = .next (s.writeResult (BitVec.ofNat 32 ((n.toNat + 64) / 65))).endOk := rfl

theorem endOk_writeResult_reports {n : Nat} (hn : n < 2 ^ 32) (s : State) :
    (s.writeResult (BitVec.ofNat 32 n)).endOk.result.toNat = n :=
  Nat.mod_eq_of_lt hn

variable {held : Prop} [Decidable held]

/-- A frame that does not hold the field writes STATUS = RANGE only (R220). -/
theorem inspect_of_not_held (h : ¬ held) (value : Nat) :
    (.next (s.inspect held value) : Host.Outcome State Fault Refusal) = .next { s with status := 0x06 } := by
  rw [State.inspect, if_neg h]
  rfl

theorem inspectString_of_not_held (h : ¬ held) (value : List Byte) :
    (.next (s.inspectString held value) : Host.Outcome State Fault Refusal) = .next { s with status := 0x06 } := by
  rw [State.inspectString, if_neg h]
  rfl

/-- A number the frame holds is written to RESULT, with STATUS = OK and nothing else. -/
theorem inspect_of_held {value n : Nat} (h : held) (hvalue : value = n) (hn : n < 2 ^ 32) :
    ∃ t, (.next (s.inspect held value) : Host.Outcome State Fault Refusal) = .next t ∧ t.result.toNat = n ∧
      t = { s with result := t.result, status := 0x00 } := by
  rw [State.inspect, if_pos h, hvalue]
  exact ⟨_, rfl, endOk_writeResult_reports hn s, rfl⟩

/-- A part of the operand frame that the frame holds becomes the result string. -/
theorem inspectString_of_held {a b n : Nat} (h : held) (hoplen : s.oplen ≤ 128) (hb : b ≤ s.oplen) (hn : b - a = n) :
    ∃ t, (.next (s.inspectString held (slice s.operand a b)) : Host.Outcome State Fault Refusal) = .next t ∧
      WritesResultString s t (slice s.operand a b) ∧ t.rlen = n := by
  have hlen : (slice s.operand a b).length = n := by rw [length_slice (by rwa [length_operand hoplen]), hn]
  rw [State.inspectString, if_pos h]
  exact ⟨_, rfl, writes_of_writeResultString (by omega), hlen⟩

end Sys2Proof.Machine
end

section
/-! PROOFS. The statements about the frame inspector's commands (45_inspector.md R221 to R229). -/

namespace Sys2Proof.Machine

/-- Settles O41: each number is read at bytes the frame holds, and LENGTH is below 65536. -/
theorem inspectorReadsSizesAndType : Obligations.InspectorReadsSizesAndType := by
  refine ⟨decodeInvertsEncode .fiSize rfl, decodeInvertsEncode .fiType rfl, decodeInvertsEncode .fiAtvsz rfl,
    fun s => ?_⟩
  intro length
  have hlength : 3 ≤ s.oplen → be16 s.operand 1 = length := be16_operand
  have hlt : length < 65536 := by omega
  clear_value length -- from here on LENGTH is just a number below 65536
  refine ⟨fun h => inspect_of_not_held (by omega) _, fun h => ?size, fun h => inspect_of_not_held (by omega) _,
    fun h => ?type, fun h => inspect_of_not_held (by omega) _, fun h h5 => ?valueSize⟩
  case size => exact inspect_of_held h (by rw [totalSize, hlength h]) (by omega)
  case type => exact inspect_of_held h (by rw [byteAt_operand 3 h (by decide)]) (by omega)
  case valueSize =>
    have hbe := hlength h
    exact inspect_of_held ⟨h, by omega⟩ (by omega) (by omega)

/-- Settles O42: the table is the wire bytes of the fields with their ids, so a row's bytes are looked up as its id and
bytes of no row as 0xFF. -/
theorem inspectorReadsFieldAndStatus : Obligations.InspectorReadsFieldAndStatus := by
  refine ⟨decodeInvertsEncode .fiAtcmd rfl, decodeInvertsEncode .fiAtstat rfl, fun s => ?_⟩
  intro table
  have htable : table = allFields.map fun fld => ((wire fld).1, (wire fld).2, (fieldId fld).toNat) := rfl
  refine ⟨fun h => inspect_of_not_held (by omega) _, fun h => ?atcmd, fun h => inspect_of_not_held (by omega) _,
    fun h => ?atstat⟩
  case atcmd =>
    have hname : lookup (byteAt s.operand 5) (byteAt s.operand 6) = lookup s.opbuf[5] s.opbuf[6] := by
      rw [byteAt_operand 5 (by omega) (by decide), byteAt_operand 6 (by omega) (by decide)]
    obtain ⟨t, ht, hresult, hframe⟩ := inspect_of_held (s := s) h (congrArg BitVec.toNat hname) (by omega)
    refine ⟨t, ht, ?_, ?_, hframe⟩
    · rw [htable, List.forall_mem_map]
      intro fld _ h5 h6
      rw [hresult, lookup_of_wire h5 h6]
    · rw [htable, List.forall_mem_map]
      intro hno
      rw [hresult, lookup_of_no_wire hno]
      rfl
  case atstat => exact inspect_of_held h (by rw [byteAt_operand 7 h (by decide)]) (by omega)

/-- Settles O43: a value that ends within OPLEN is a part of the operand string. -/
theorem fiAtvalCopiesTheValueOrRaisesRange : Obligations.FiAtvalCopiesTheValueOrRaisesRange := by
  refine ⟨decodeInvertsEncode .fiAtval rfl, fun s hoplen => ?_⟩
  intro length
  have hlength : 3 ≤ s.oplen → be16 s.operand 1 = length := be16_operand
  refine ⟨fun h => inspectString_of_not_held (by omega) _, fun h h5 hend => ?_⟩
  rw [exec, execFiAtval, hlength h]
  exact inspectString_of_held ⟨h, h5, hend⟩ hoplen hend (by omega)

/-- Settles O44: a frame of t bytes within OPLEN has its payload in the operand string. -/
theorem fiRxpayCopiesThePayloadOrRaisesRange : Obligations.FiRxpayCopiesThePayloadOrRaisesRange := by
  refine ⟨decodeInvertsEncode .fiRxpay rfl, fun s hoplen => ?_⟩
  intro total
  have htotal : 3 ≤ s.oplen → totalSize s.operand = total := fun h => congrArg (· + 4) (be16_operand h)
  refine ⟨fun h => inspectString_of_not_held (by omega) _, fun h h16 hend => ?_⟩
  rw [exec, execFiRxpay, htotal h]
  exact inspectString_of_held ⟨h, h16, hend⟩ hoplen (by omega) (by omega)

/-- Settles O45: the quotient (n + 64) div 65 is n / 65 rounded up, and fits RESULT. -/
theorem pktCountIsTheLeastSufficientCount : Obligations.PktCountIsTheLeastSufficientCount := by
  intro n
  refine ⟨?word, fun s => ⟨_, exec_pktCount n s, ?_⟩⟩
  case word => rw [← encode_pktCount, decodeInvertsEncode _ rfl]
  have henough : n.toNat ≤ (n.toNat + 64) / 65 * 65 := by omega
  have hleast (k : Nat) (hk : n.toNat ≤ k * 65) : (n.toNat + 64) / 65 ≤ k := by omega
  rw [endOk_writeResult_reports (by omega) s]
  exact ⟨⟨henough, hleast⟩, rfl, rfl⟩

end Sys2Proof.Machine
end

section
/-! SUPPORT. The error each command can raise and when it does, as two tables (60_exceptions.md R251), and what a
command that raises it leaves: its commits of R253 and the status, nothing else (R252). -/

namespace Sys2Proof.Machine

/-! ## The causes of the errors -/

/-- The error a legal command can raise (R251); OK for a command that raises none. -/
def errorStatus : Instr → Status
  | .encAt _ => .validationError
  | .encTx => .payloadTooLarge
  | .extract => .notFound
  | .opbPush _ | .inPush _ | .inAppend | .parse => .full
  | .outPop => .empty
  | .fiSize | .fiType | .fiAtvsz | .fiAtval | .fiAtcmd | .fiAtstat | .fiRxpay => .range
  | .nop | .opbClr | .opbFromRbuf | .destSet _ _ | .csumClr | .csumAdd _ | .csumRead | .csumBuf | .fvCheck _
  | .pktCount _ => .ok

/-- When a legal command raises its error (R251). -/
def Fails (i : Instr) (s : State) : Prop :=
  match i with
  | .encAt f => ∃ fld, fieldOfId f = some fld ∧ valid fld s.operand = false
  | .encTx => 65 < s.oplen
  | .extract => s.extractScan.stop ≠ .found
  | .opbPush _ => s.oplen = 128
  | .inPush _ => s.inCount = s.params.inCap
  | .inAppend => s.params.inCap < s.inCount + s.oplen
  | .parse => s.parseScan.stop = .outFull
  | .outPop => s.ofifo = []
  | .fiSize => s.oplen < 3
  | .fiType => s.oplen < 4
  | .fiAtvsz => s.oplen < 3 ∨ be16 s.operand 1 < 5
  | .fiAtval => s.oplen < 3 ∨ be16 s.operand 1 < 5 ∨ s.oplen < 8 + (be16 s.operand 1 - 5)
  | .fiAtcmd => s.oplen < 7
  | .fiAtstat => s.oplen < 8
  | .fiRxpay => s.oplen < 3 ∨ totalSize s.operand < 16 ∨ s.oplen < totalSize s.operand
  | .nop | .opbClr | .opbFromRbuf | .destSet _ _ | .csumClr | .csumAdd _ | .csumRead | .csumBuf | .fvCheck _
  | .pktCount _ => False

/-- What a command commits before it raises its error (R253). -/
def committed (i : Instr) (s : State) : State :=
  match i with
  | .parse =>
    { s.commitScan s.parseScan with
      ofifo := s.ofifo ++ s.parseScan.frames
      result := countWord s.parseScan.frames.length }
  | .extract => s.commitScan s.extractScan
  | _ => s

/-! ## How a command ends -/

/-- State t is one that a legal command i can end in from state s: its error is raised on what it has committed, exactly
when it fails. -/
structure Ends (i : Instr) (s t : State) : Prop where
  raised : Fails i s → t = (committed i s).raise (errorStatus i)
  ok : ¬ Fails i s → t.status = 0x00

variable {i : Instr} {s t : State} {c : Prop} [Decidable c]

theorem Ends.raise (h : Fails i s) : Ends i s ((committed i s).raise (errorStatus i)) := ⟨fun _ => rfl, absurd h⟩

theorem Ends.of_ok (h : ¬ Fails i s) (hok : t.status = 0x00) : Ends i s t := ⟨fun hf => absurd hf h, fun _ => hok⟩

/-- A command that checks for its error first. -/
theorem Ends.raiseIf (h : Fails i s ↔ c) :
    Ends i s (if c then (committed i s).raise (errorStatus i) else t.endOk) := by
  split
  next hc => exact .raise (h.2 hc)
  next hc => exact .of_ok (mt h.1 hc) rfl

/-- A command that checks first that it can succeed. -/
theorem Ends.raiseUnless (h : Fails i s ↔ ¬ c) :
    Ends i s (if c then t.endOk else (committed i s).raise (errorStatus i)) := by
  rw [← ite_not]
  exact .raiseIf h

/-! ## Every command -/

theorem fieldOfId_eq_none_iff (f : Byte) : fieldOfId f = none ↔ 12 ≤ f.toNat := by
  unfold fieldOfId
  split
  case h_13 =>
    simp only [imp_false, true_iff] at *
    omega
  all_goals simp [*]

/-- A legal field id is the id of a field (30_encoding.md R71, R84). -/
theorem exists_fieldOfId {f : Byte} (h : f.toNat < 12) : ∃ fld, fieldOfId f = some fld := by
  rw [← Option.ne_none_iff_exists', ne_eq, fieldOfId_eq_none_iff]
  omega

theorem exec_fvCheck_ends {f : Byte} (h : f.toNat < 12) :
    ∃ t, exec (.fvCheck f) s = .next t ∧ Ends (.fvCheck f) s t := by
  obtain ⟨fld, hid⟩ := exists_fieldOfId h
  exact ⟨_, exec_fvCheck_of_field hid rfl, .of_ok id rfl⟩

theorem exec_encAt_ends {f : Byte} (h : f.toNat < 12) :
    ∃ t, exec (.encAt f) s = .next t ∧ Ends (.encAt f) s t := by
  obtain ⟨fld, hid⟩ := exists_fieldOfId h
  have hfails : Fails (.encAt f) s ↔ valid fld s.operand = false := by simp [Fails, hid]
  cases hvalid : valid fld s.operand with
  | false => exact ⟨_, exec_encAt_of_invalid hid hvalid, .raise (hfails.2 hvalid)⟩
  | true => exact ⟨_, exec_encAt_of_valid hid hvalid, .of_ok (by simp [hfails, hvalid]) rfl⟩

theorem exec_outPop_ends (s : State) : ∃ t, exec .outPop s = .next t ∧ Ends .outPop s t := by
  cases hq : s.ofifo with
  | nil => exact ⟨_, exec_outPop_of_nil hq, .raise hq⟩
  | cons fr rest => exact ⟨_, exec_outPop_of_cons hq, .of_ok (by simp [Fails, hq]) rfl⟩

/-- Every legal command ends with its own error exactly under the causes of R251, and with OK otherwise. -/
theorem exec_ends (hwf : i.wellFormed = true) (s : State) : ∃ t, exec i s = .next t ∧ Ends i s t := by
  cases i with
  | nop => exact ⟨_, rfl, .of_ok id rfl⟩
  | opbClr => exact ⟨_, rfl, .of_ok id rfl⟩
  | opbPush a => exact ⟨_, rfl, .raiseIf .rfl⟩
  | opbFromRbuf => exact ⟨_, rfl, .of_ok id rfl⟩
  | destSet index a => exact ⟨_, exec_destSet_of_lt (of_decide_eq_true hwf) a s, .of_ok id rfl⟩
  | csumClr => exact ⟨_, rfl, .of_ok id rfl⟩
  | csumAdd a => exact ⟨_, rfl, .of_ok id rfl⟩
  | csumRead => exact ⟨_, rfl, .of_ok id rfl⟩
  | csumBuf => exact ⟨_, rfl, .of_ok id rfl⟩
  | fvCheck f => exact exec_fvCheck_ends (of_decide_eq_true hwf)
  | encAt f => exact exec_encAt_ends (of_decide_eq_true hwf)
  | encTx => exact ⟨_, rfl, .raiseIf .rfl⟩
  | inPush a => exact ⟨_, rfl, .raiseIf .rfl⟩
  | inAppend => exact ⟨_, rfl, .raiseIf .rfl⟩
  | parse => exact ⟨_, rfl, .raiseIf .rfl⟩
  | extract => exact ⟨_, rfl, .raiseUnless .rfl⟩
  | outPop => exact exec_outPop_ends s
  | fiSize => exact ⟨_, rfl, .raiseUnless Nat.not_le.symm⟩
  | fiType => exact ⟨_, rfl, .raiseUnless Nat.not_le.symm⟩
  | fiAtvsz => exact ⟨_, rfl, .raiseUnless (by rw [Fails]; omega)⟩
  | fiAtval => exact ⟨_, rfl, .raiseUnless (by rw [Fails]; omega)⟩
  | fiAtcmd => exact ⟨_, rfl, .raiseUnless Nat.not_le.symm⟩
  | fiAtstat => exact ⟨_, rfl, .raiseUnless Nat.not_le.symm⟩
  | fiRxpay => exact ⟨_, rfl, .raiseUnless (by rw [Fails]; omega)⟩
  | pktCount n => exact ⟨_, rfl, .of_ok id rfl⟩

/-- A command with an operand out of range ends as its word does (R71). -/
theorem exec_of_illFormed (h : i.wellFormed = false) (s : State) : exec i s = .next (s.raise .illegal) := by
  cases i with
  | destSet index a => rw [exec, execDestSet, if_neg (of_decide_eq_false h)]
  | fvCheck f => rw [exec, execFvCheck, (fieldOfId_eq_none_iff f).2 (Nat.not_lt.1 (of_decide_eq_false h))]
  | encAt f => rw [exec, execEncAt, (fieldOfId_eq_none_iff f).2 (Nat.not_lt.1 (of_decide_eq_false h))]
  | _ => exact absurd h (by simp [Instr.wellFormed])

/-! ## What the status tells -/

theorem statusCode_injective : Function.Injective statusCode := by
  intro a b
  cases a <;> cases b <;> decide

/-- The status a command ends with tells the error it raised. -/
theorem Ends.status_eq_iff (h : Ends i s t) (st : Status) (hst : st ≠ .ok) :
    t.status = statusCode st ↔ errorStatus i = st ∧ Fails i s := by
  by_cases hf : Fails i s
  · rw [h.raised hf, State.raise_status, statusCode_injective.eq_iff, and_iff_left hf]
  · have hok : t.status = statusCode .ok := h.ok hf
    rw [hok, statusCode_injective.eq_iff]
    exact iff_of_false hst.symm fun hfails => hf hfails.2

/-- A legal command that ends with an error has raised its own, on what it has committed. -/
theorem eq_raise_of_exec (hwf : i.wellFormed = true) (h : exec i s = .next t) (herr : t.status ≠ 0x00) :
    t = (committed i s).raise (errorStatus i) := by
  obtain ⟨t', ht', hends⟩ := exec_ends hwf s
  obtain rfl := Host.Outcome.next.inj (ht'.symm.trans h)
  exact hends.raised (not_imp_comm.1 hends.ok herr)

/-- The two commands of R253 are the only ones that commit anything. -/
theorem committed_of_ne (hparse : i ≠ .parse) (hextract : i ≠ .extract) (s : State) : committed i s = s := by
  cases i with
  | parse => exact absurd rfl hparse
  | extract => exact absurd rfl hextract
  | _ => rfl

theorem errorStatus_ne_illegal (i : Instr) : errorStatus i ≠ .illegal := by
  cases i <;> simp [errorStatus]

/-- No legal command ends with ILLEGAL (R71). -/
theorem Ends.status_ne_illegal (h : Ends i s t) : t.status ≠ 0x07 := by
  intro hst
  obtain ⟨herr, -⟩ := (h.status_eq_iff .illegal nofun).1 hst
  exact errorStatus_ne_illegal i herr

/-! ## The causes of each error, row by row (R251): the commands that have it in `errorStatus`, each when it fails -/

theorem raises_validationError_iff : errorStatus i = .validationError ∧ Fails i s ↔
    ∃ f fld, i = .encAt f ∧ fieldOfId f = some fld ∧ valid fld s.operand = false := by
  cases i <;> simp [errorStatus, Fails]

theorem raises_payloadTooLarge_iff : errorStatus i = .payloadTooLarge ∧ Fails i s ↔
    i = .encTx ∧ 65 < s.oplen := by
  cases i <;> simp [errorStatus, Fails]

theorem raises_notFound_iff : errorStatus i = .notFound ∧ Fails i s ↔
    i = .extract ∧ s.extractScan.stop ≠ .found := by
  cases i <;> simp [errorStatus, Fails]

theorem raises_full_iff : errorStatus i = .full ∧ Fails i s ↔
    (∃ a, i = .opbPush a ∧ s.oplen = 128) ∨ (∃ a, i = .inPush a ∧ s.inCount = s.params.inCap) ∨
      (i = .inAppend ∧ s.params.inCap < s.inCount + s.oplen) ∨ (i = .parse ∧ s.parseScan.stop = .outFull) := by
  cases i <;> simp [errorStatus, Fails]

theorem raises_empty_iff : errorStatus i = .empty ∧ Fails i s ↔ i = .outPop ∧ s.ofifo = [] := by
  cases i <;> simp [errorStatus, Fails]

theorem raises_range_iff : errorStatus i = .range ∧ Fails i s ↔
    (i = .fiSize ∧ s.oplen < 3) ∨ (i = .fiType ∧ s.oplen < 4) ∨
      (i = .fiAtvsz ∧ (s.oplen < 3 ∨ be16 s.operand 1 < 5)) ∨
      (i = .fiAtval ∧ (s.oplen < 3 ∨ be16 s.operand 1 < 5 ∨ s.oplen < 8 + (be16 s.operand 1 - 5))) ∨
      (i = .fiAtcmd ∧ s.oplen < 7) ∨ (i = .fiAtstat ∧ s.oplen < 8) ∨
      (i = .fiRxpay ∧ (s.oplen < 3 ∨ totalSize s.operand < 16 ∨ s.oplen < totalSize s.operand)) := by
  cases i <;> simp [errorStatus, Fails]

/-! ## Issuing a word -/

/-- Issuing a word ends with ILLEGAL exactly when R75 lists it. -/
theorem issue_illegal_iff (w : Word) (s : State) :
    ∃ t, issue w s = .next t ∧ (t.status = 0x07 ↔ IllegalWord w) := by
  by_cases hw : IllegalWord w
  · exact ⟨_, issue_of_illegalWord hw s, iff_of_true rfl hw⟩
  · obtain ⟨i, hi⟩ := not_forall_not.1 (mt (illegalWord_iff_not_decoded w).2 hw)
    obtain ⟨hwf, -⟩ := (decode_eq_ok_iff w i).1 hi
    obtain ⟨t, ht, hends⟩ := exec_ends hwf s
    exact ⟨t, (issue_of_decode hi).trans ht, iff_of_false hends.status_ne_illegal hw⟩

end Sys2Proof.Machine
end

section
/-! PROOFS. The statements about errors (60_exceptions.md R251 to R253). -/

namespace Sys2Proof.Machine

/-- Settles O48: an operand out of range raises ILLEGAL only, and a legal command raises its error on what it has
committed, which is nothing but for PARSE and EXTRACT. -/
theorem errorsWriteStatusOnly : Obligations.ErrorsWriteStatusOnly := by
  intro i s t h herr
  refine ⟨fun hparse hextract => ?other, ?parse, ?extract⟩
  case other =>
    cases hwf : i.wellFormed with
    | true =>
      rw [eq_raise_of_exec hwf h herr, committed_of_ne hparse hextract]
      rfl
    | false =>
      obtain rfl := Host.Outcome.next.inj ((exec_of_illFormed hwf s).symm.trans h)
      rfl
  case parse | extract =>
    rintro rfl
    rw [eq_raise_of_exec rfl h herr]
    exact ⟨rfl, rfl⟩

/-- Settles O49: a legal command raises the one error it has exactly under its causes, and a word that decodes is that
of a legal command. -/
theorem statusCauses : Obligations.StatusCauses := by
  refine ⟨fun i s hwf => ?_, fun s w rest hp => ?_⟩
  · obtain ⟨t, ht, hends⟩ := exec_ends hwf s
    exact ⟨t, ht, (hends.status_eq_iff .validationError nofun).trans raises_validationError_iff,
      (hends.status_eq_iff .payloadTooLarge nofun).trans raises_payloadTooLarge_iff,
      (hends.status_eq_iff .notFound nofun).trans raises_notFound_iff,
      (hends.status_eq_iff .full nofun).trans raises_full_iff,
      (hends.status_eq_iff .empty nofun).trans raises_empty_iff,
      (hends.status_eq_iff .range nofun).trans raises_range_iff, hends.status_ne_illegal⟩
  · rw [step_of_pending hp, serve_write]
    exact issue_illegal_iff w _

end Sys2Proof.Machine
end

section
/-! SUPPORT. What the scan finds in a row of frames among garbage (95_test_vectors.md section 1), and which frames of
the layout of 30_encoding.md R80 it may emit (70_reset_and_hazards.md R295). -/

namespace Sys2Proof.Machine

variable {z : Bool} {f body : List Byte} {type : Byte}

/-! ## Frames among garbage -/

theorem scanned_garbage {g : List Byte} (h : 0x7E ∉ g) (rest : List Byte) :
    framesIn z (g ++ rest) = framesIn z rest ∧ leftIn z (g ++ rest) = leftIn z rest :=
  scanned_eq (candRun_garbage h rest)

/-- Frames among garbage are found in order, and the scan goes on with the bytes after them as if they stood alone. -/
theorem scanned_segments (segments : List (List Byte × List Byte)) (rest : List Byte)
    (h : ∀ gf ∈ segments, 0x7E ∉ gf.1 ∧ Emittable z gf.2) :
    framesIn z ((segments.map fun gf => gf.1 ++ gf.2).flatten ++ rest) = segments.map Prod.snd ++ framesIn z rest ∧
      leftIn z ((segments.map fun gf => gf.1 ++ gf.2).flatten ++ rest) = leftIn z rest := by
  induction segments with
  | nil => exact ⟨rfl, rfl⟩
  | cons gf segments ih =>
    obtain ⟨⟨hgarbage, hframe⟩, hsegments⟩ := List.forall_mem_cons.1 h
    obtain ⟨hframes, hleft⟩ := ih hsegments
    rw [List.map_cons, List.flatten_cons, List.append_assoc, List.append_assoc]
    obtain ⟨hskipFrames, hskipLeft⟩ := scanned_garbage (z := z) hgarbage (gf.2 ++ _)
    obtain ⟨hemitFrames, hemitLeft⟩ := scanned_frame hframe _
    rw [hskipFrames, hskipLeft, hemitFrames, hemitLeft, hframes, hleft]
    exact ⟨rfl, rfl⟩

/-- Garbage that stands alone holds no frame, and nothing is left. -/
theorem scanned_garbage_alone {g : List Byte} (h : 0x7E ∉ g) : framesIn z g = [] ∧ leftIn z g = [] := by
  obtain ⟨hframes, hleft⟩ := scanned_garbage (z := z) h []
  obtain ⟨hnone, hempty⟩ := scanned_nil z
  rw [List.append_nil] at hframes hleft
  exact ⟨hframes.trans hnone, hleft.trans hempty⟩

/-- A frame that stands alone is found, and nothing is left. -/
theorem scanned_frame_alone (h : Emittable z f) : framesIn z f = [f] ∧ leftIn z f = [] := by
  obtain ⟨hframes, hleft⟩ := scanned_frame h []
  obtain ⟨hnone, hempty⟩ := scanned_nil z
  rw [List.append_nil] at hframes hleft
  exact ⟨hframes.trans (congrArg (f :: ·) hnone), hleft.trans hempty⟩

/-! ## The encoder's frames -/

/-- A LENGTH of at most 124 is below 0x7E, so neither of its bytes is a START. -/
theorem byteAt_mkFrame_ne_start (hlen : body.length ≤ 123) (htype : type ≠ 0x7E) (hbody : 0x7E ∉ body) {j : Nat}
    (hj : 1 ≤ j) (hj' : j < 4 + body.length) : byteAt (mkFrame type body) j ≠ 0x7E := by
  obtain rfl | rfl | rfl | hk : j = 1 ∨ j = 2 ∨ j = 3 ∨ 4 ≤ j := by omega
  · rw [mkFrame_of_le hlen]
    exact show (0x00 : Byte) ≠ 0x7E by decide
  · rw [mkFrame_of_le hlen]
    change BitVec.ofNat 8 (1 + body.length) ≠ 0x7E
    rw [ne_eq, ← BitVec.toNat_inj, BitVec.toNat_ofNat]
    change ¬ (1 + body.length) % 256 = 126
    omega
  · exact htype
  · obtain ⟨k, rfl⟩ := Nat.exists_eq_add_of_le hk
    have hk' : k < body.length := Nat.lt_of_add_lt_add_left hj'
    rw [byteAt_mkFrame_body type hk']
    exact ne_of_mem_of_not_mem (List.getElem_mem hk') hbody

/-- A frame that fits is emittable when its type and its body hold no 0x7E. -/
theorem emittable_mkFrame (hlen : body.length ≤ 123) (htype : type ≠ 0x7E) (hbody : 0x7E ∉ body) :
    Emittable z (mkFrame type body) := by
  obtain ⟨hstart, hvalid, -⟩ := wireFrame_mkFrame (type := type) hlen
  have hlength : be16 (mkFrame type body) 1 = 1 + body.length := be16_mkFrame (by omega)
  refine ⟨hstart, hvalid, by omega, fun h0 => by omega, fun j hj hj' => ?_⟩
  rw [length_mkFrame] at hj'
  exact byteAt_mkFrame_ne_start hlen htype hbody hj (by omega)

/-- No wire byte of a field's name is 0x7E (30_encoding.md R84). -/
theorem start_not_mem_atBody (fld : AtField) {v : List Byte} (h : 0x7E ∉ v) : 0x7E ∉ atBody fld v := by
  have hname : (0x7E : Byte) ∉ [Config.frameId, (wire fld).1, (wire fld).2] := by cases fld <;> decide
  exact List.not_mem_append hname h

theorem start_not_mem_txBody {d p : List Byte} (hd : 0x7E ∉ d) (hp : 0x7E ∉ p) : 0x7E ∉ txBody d p :=
  List.not_mem_append (List.not_mem_append (List.not_mem_append (by decide) hd) (by decide)) hp

theorem emittable_atFrame {fld : AtField} {v : List Byte} (hlen : v.length ≤ 120) (hv : 0x7E ∉ v) :
    Emittable z (atFrame fld v) :=
  emittable_mkFrame (by simp [atBody]; omega) (by decide) (start_not_mem_atBody fld hv)

theorem emittable_txFrame {d p : List Byte} (hlen : d.length = 8) (hlen' : p.length ≤ 65) (hd : 0x7E ∉ d)
    (hp : 0x7E ∉ p) : Emittable z (txFrame d p) :=
  emittable_mkFrame (by simp [txBody, hlen]; omega) (by decide) (start_not_mem_txBody hd hp)

end Sys2Proof.Machine
end

section
/-! PROOFS. The statements about frames among garbage (95_test_vectors.md section 1) and about the block's own frames
(70_reset_and_hazards.md R295). -/

namespace Sys2Proof.Machine

/-- Settles O34, by induction on the segments: garbage leaves no candidate, a frame is emitted whole, and the tail is
garbage. -/
theorem framesAmongGarbageAreFoundInOrder : Obligations.FramesAmongGarbageAreFoundInOrder := by
  intro z segments tail hsegments htail
  obtain ⟨hframes, hleft⟩ := scanned_segments segments tail hsegments
  obtain ⟨hnone, hempty⟩ := scanned_garbage_alone (z := z) htail
  exact ⟨by rw [hframes, hnone, List.append_nil], hleft.trans hempty⟩

/-- Settles O36: nothing else in either layout is 0x7E, so the frame is emittable. -/
theorem blockReceivesItsOwnFrames : Obligations.BlockReceivesItsOwnFrames := by
  refine ⟨fun z fld v hvalid hv => ?_, fun z d p hlen hlen' hd hp => ?_⟩
  · exact scanned_frame_alone (emittable_atFrame (length_le_of_valid hvalid) hv)
  · exact scanned_frame_alone (emittable_txFrame hlen hlen' hd hp)

end Sys2Proof.Machine
end

section
/-! SUPPORT. How many bytes PARSE and EXTRACT leave buffered (70_reset_and_hazards.md R292), and the reset state
(R280). -/

namespace Sys2Proof.Machine

variable {s : State} {f : List Byte} {fs : List (List Byte)}

/-! ## The bytes left in IBUF -/

theorem status_afterParse_ok_iff : s.afterParse.status = 0x00 ↔ s.found.length ≤ s.room := by
  rw [status_afterParse]
  by_cases hroom : s.found.length ≤ s.room <;> simp [hroom]

/-- What a scan to the end leaves is at most a partial candidate. -/
theorem length_left_le (s : State) : s.left.length ≤ 127 := by
  rcases candidate_left s with hnil | hpartial
  · simp [hnil]
  · exact hpartial.length_le

theorem inCount_afterParse_of_le (h : s.Inv) (hroom : s.found.length ≤ s.room) : s.afterParse.inCount ≤ 127 := by
  rw [← length_buffered h.afterParse, buffered_afterParse_of_le h hroom]
  exact length_left_le s

theorem inCount_afterExtract_of_nil (h : s.Inv) (hfound : s.found = []) : s.afterExtract.inCount ≤ 127 := by
  rw [← length_buffered h.afterExtract, buffered_afterExtract_of_nil h hfound]
  exact length_left_le s

theorem Emittable.length_pos {z : Bool} (h : Emittable z f) : 0 < f.length := by
  obtain ⟨-, ⟨hlen, -⟩, -⟩ := h
  omega

/-- EXTRACT consumes at least the frame it returns (R210, R181). -/
theorem extractScan_cb_pos_of_cons (hfound : s.found = f :: fs) : 0 < s.extractScan.regs.cb := by
  obtain ⟨f', hframes, hcb, -⟩ := scanSpan_found (extractScan_stop_of_cons hfound)
  have hframe : Emittable s.params.zeroLenAccept f' :=
    runScan_frames_emittable s .first f' (hframes ▸ List.mem_singleton_self f')
  exact hframe.length_pos.trans_le hcb

theorem inCount_afterExtract_of_cons (h : s.Inv) (hfound : s.found = f :: fs) :
    s.afterExtract.inCount < s.params.inCap := by
  have hcb := extractScan_cb_pos_of_cons hfound
  have hcount := h.inCount
  obtain ⟨hcap, -⟩ := h.params
  rw [afterExtract_of_cons hfound]
  change s.inCount - s.extractScan.regs.cb < s.params.inCap
  omega

theorem status_afterExtract_of_cons (hfound : s.found = f :: fs) : s.afterExtract.status = 0x00 := by
  rw [afterExtract_of_cons hfound, State.endOk_status]

/-- Found or not, EXTRACT leaves room for a byte (R210, R181; log entry 21). -/
theorem inCount_afterExtract_lt (h : s.Inv) : s.afterExtract.inCount < s.params.inCap := by
  cases hfound : s.found with
  | nil =>
    have hle := inCount_afterExtract_of_nil h hfound
    obtain ⟨hcap, -⟩ := h.params
    omega
  | cons f fs => exact inCount_afterExtract_of_cons h hfound

/-! ## Reset -/

/-- The reset values of R280 do not depend on the parameters. -/
theorem atReset_resetWith (p : Params) : (State.resetWith p).AtReset :=
  ⟨rfl, rfl, rfl, rfl, fun i => Vector.getElem_replicate i.isLt, rfl, rfl, rfl, rfl, rfl, rfl⟩

theorem serve_reset (s : State) : serve .reset s = .next s.afterReset := rfl

end Sys2Proof.Machine
end

section
/-! PROOFS. The statements about reset and the room in IBUF (70_reset_and_hazards.md R280, R292) and about the idle
block (60_exceptions.md section 5). -/

namespace Sys2Proof.Machine

/-- Settles O40: a scan to the end leaves at most a partial candidate, and a scan that returns a frame consumes it. -/
theorem bufferRegainsRoomAfterAFullScan : Obligations.BufferRegainsRoomAfterAFullScan := by
  intro s t h
  obtain ⟨hcap, -⟩ := h.params
  refine ⟨fun hrun hok => ?parseOk, fun hrun hnone => ?notFound, fun hrun hfull => ?parseFull, fun hrun => ?extract⟩
  case parseOk =>
    obtain rfl := Host.Outcome.next.inj ((exec_parse s).symm.trans hrun)
    have hle := inCount_afterParse_of_le h (status_afterParse_ok_iff.1 hok)
    exact ⟨hle, show s.afterParse.inCount < s.params.inCap by omega⟩
  case notFound =>
    obtain rfl := Host.Outcome.next.inj ((exec_extract s).symm.trans hrun)
    cases hfound : s.found with
    | nil => exact inCount_afterExtract_of_nil h hfound
    | cons f fs =>
      rw [status_afterExtract_of_cons hfound] at hnone
      exact absurd hnone (by decide)
  case parseFull =>
    obtain rfl := Host.Outcome.next.inj ((exec_parse s).symm.trans hrun)
    rw [status_afterParse, if_neg]
    intro hroom
    have hle := inCount_afterParse_of_le h hroom
    change s.afterParse.inCount = s.params.inCap at hfull
    omega
  case extract =>
    obtain rfl := Host.Outcome.next.inj ((exec_extract s).symm.trans hrun)
    obtain ⟨hparams, -⟩ := afterExtract_input s
    rw [hparams]
    exact inCount_afterExtract_lt h

/-- Settles O10: serving a reset leaves the reset state of the same parameters, and the host's side as it was. -/
theorem resetSetsEveryRegister : Obligations.ResetSetsEveryRegister := by
  refine ⟨fun s rest hp => ?_, atReset_resetWith, atReset_resetWith Config.params⟩
  exact ⟨_, (step_of_pending hp).trans (serve_reset _), atReset_resetWith s.params, rfl, rfl, rfl⟩

/-- Settles O6: `step` serves a pending access, and here there is none. -/
theorem stepWithNothingPendingIsIdle : Obligations.StepWithNothingPendingIsIdle := by
  intro s hp
  rw [step, hp]

end Sys2Proof.Machine
end
